-- ==== Sys2Proof/Word.lean ====
section
/-! DEFINITION. The word types of FX (00_scope.md R9, R10). -/

namespace Sys2Proof

/-- One byte of the stream, of the buffer or of a byte operand. -/
abbrev Byte := BitVec 8

/-- A 16-bit operand or payload length (30_encoding.md R52, 20_memory.md R37). -/
abbrev Half := BitVec 16

/-- A command word, a register or a response data word (00_scope.md R9). -/
abbrev Word := BitVec 32

end Sys2Proof
end

