-- ==== Sys2Proof/Config.lean ====
section
/-! DEFINITION. What a built FX fixes: the build parameters of 00_scope.md §4 and the literals of R4, R5, R6. -/

namespace Sys2Proof.Config

/-- The three build parameters a model takes as arguments (00_scope.md R1, R2, R3; 92_eei_decisions.md D37).
They stand in State as the constant registers CAPACITY, MAXPAY and ITERCAP. -/
structure Params where
  /-- `C`, the buffer capacity in bytes (R1). -/
  capacity : Nat
  /-- `MAX_PAYLOAD`, the largest payload length accepted (R2). -/
  maxPayload : Nat
  /-- `ITER_CAP`, the iteration cap of one RUN (R3). -/
  iterCap : Nat
  deriving DecidableEq, Repr

/-- The document's values (R1, R2, R3). -/
def Params.document : Params := { capacity := 8192, maxPayload := 4096, iterCap := 1000 }

/-- The bounds every built FX satisfies (R7). -/
abbrev Params.Valid (p : Params) : Prop :=
  8 + p.maxPayload ≤ p.capacity ∧ p.capacity ≤ 65535 ∧ 1 ≤ p.iterCap ∧ p.iterCap ≤ 65535

/-- `SYNC0` (R4). -/
def sync0 : Byte := 0xB5#8

/-- `SYNC1` (R4). -/
def sync1 : Byte := 0x62#8

/-- `TARGET_CLASS` (R5). -/
def targetClass : Byte := 0x01#8

/-- `TARGET_ID` (R5). -/
def targetId : Byte := 0x07#8

/-- `TARGET_LEN` (R5). -/
def targetLen : Half := 92#16

/-- `HDR_LEN` (R6). -/
def headerLen : Nat := 6

/-- `FRAME_OVERHEAD` (R6). -/
def frameOverhead : Nat := 8

/-- What a byte of `buf` that nothing has written reads as. 10_state.md R17 leaves the contents after reset
unspecified and no command can observe them. DESIGN CHOICE, unsafe (entry 5). -/
def unlistedByte : Byte := 0#8

end Sys2Proof.Config
end

