-- ==== Sys2Proof/Syntax.lean ====
section
/-! DEFINITION. The eleven commands of FX command set version 1, one constructor per row of spec/opcode_table.json
(30_encoding.md R54), and the names of the readable registers (10_state.md §4). -/

namespace Sys2Proof

/-- A command with its operand as the word carries it (30_encoding.md R52, R54). -/
inductive Instr where
  /-- NOP, format Z (40_ringbuffer.md R67). -/
  | nop
  /-- APPEND imm8, format B (40_ringbuffer.md R68). -/
  | append (imm8 : Byte)
  /-- PEEK imm16, format H (40_ringbuffer.md R70). -/
  | peek (imm16 : Half)
  /-- CONSUME imm16, format H (40_ringbuffer.md R71). -/
  | consume (imm16 : Half)
  /-- FINDSYNC, format Z (40_ringbuffer.md R72). -/
  | findsync
  /-- CLEAR, format Z (40_ringbuffer.md R73). -/
  | clear
  /-- STEP, format Z (41_extractor.md R94). -/
  | step
  /-- RUN, format Z (41_extractor.md R95). -/
  | run
  /-- CKRST, format Z (42_checksum_control.md R99). -/
  | ckrst
  /-- CKFEED imm8, format B (42_checksum_control.md R100). -/
  | ckfeed (imm8 : Byte)
  /-- RDREG ridx, format R (42_checksum_control.md R103). -/
  | rdreg (ridx : BitVec 4)
  deriving DecidableEq, Repr

/-- The ten registers RDREG reads (10_state.md §4). -/
inductive RegName where
  | capacity
  | available
  | validCount
  | lastOutcome
  | lastFrame
  | ck
  | err
  | maxpay
  | itercap
  | target
  deriving DecidableEq, Repr

end Sys2Proof
end

