-- ==== Sys2Proof/Machine/State.lean ====
section
/-! DEFINITION. The state of FX as plain data (10_state.md R13), the events at its ports (30_encoding.md R50), the
reasons a step can stop, and the state after reset (70_reset_and_hazards.md R120). -/

namespace Sys2Proof.Machine

/-- Why the machine stops. FX itself never does: its two errors are responses (60_exceptions.md R104, R105). -/
inductive Fault where
  /-- Raised by a STEP or RUN that emits a FrameOut record the downstream never takes: the command never responds
  (70_reset_and_hazards.md R127, 93_implementation_defined.md I10 "stuck"). Safe: FX makes no further step then. -/
  | downstreamStalled
  deriving DecidableEq, Repr

/-- Why the model gives an instruction no meaning. -/
inductive Refusal where
  /-- Raised only by an arm of `exec` that has no meaning yet; no arm of this model is such. Safe: nothing is
  claimed of the instruction. -/
  | notModelled (mnemonic : String)
  deriving DecidableEq, Repr

/-- The response statuses of 30_encoding.md R59; status 3 is reserved and never produced. -/
inductive Status where
  /-- 0, the command completed. -/
  | ok
  /-- 1, PEEK index at or past `count`. -/
  | oor
  /-- 2, illegal command word. -/
  | ill
  deriving DecidableEq, Repr

/-- A response: a status and a 32-bit data word (30_encoding.md R59). -/
structure Response where
  status : Status
  data : Word
  deriving DecidableEq, Repr

/-- A FrameOut record (60_exceptions.md R110). -/
structure FrameOut where
  cls : Byte
  id : Byte
  len : Half
  payload : List Byte
  deriving DecidableEq, Repr

/-- What leaves FX: a FrameOut record or a response (60_exceptions.md R114). -/
inductive OutEvent where
  | frame (f : FrameOut)
  | response (r : Response)
  deriving DecidableEq, Repr

/-- What the host does next (60_exceptions.md R112). -/
inductive HostInput where
  /-- One word transferred on the command port (30_encoding.md R50). -/
  | command (w : Word)
  /-- `rst` asserted and released with no command in progress (70_reset_and_hazards.md R119). -/
  | reset
  /-- The word is transferred, and `rst` rises while its command is in progress, after `done` iterations at most
  (70_reset_and_hazards.md R119; entry 7). -/
  | interrupted (w : Word) (done : Nat)
  deriving DecidableEq, Repr

/-- The values an input has when FX looks at it: the next ones in order, then the level it stays at. Every finite
pattern of draws is some `draws` (70_reset_and_hazards.md R126; entries 2 and 3). -/
structure Pin where
  draws : List Bool
  level : Bool
  deriving DecidableEq, Repr

/-- The outcome an iteration ends with (41_extractor.md R75). -/
inductive IterOutcome where
  | needData
  | noSync
  | junk
  | needHeader
  | badLength
  | needFrame
  | badChecksum
  | frameOk
  deriving DecidableEq, Repr

/-- Why a RUN ends (41_extractor.md R95): the outcome of its last iteration, the cap, or `cancel`. -/
inductive RunReason where
  | stop (o : IterOutcome)
  | capExceeded
  | cancelled
  deriving DecidableEq, Repr

/-- A memory: its listed bytes, addresses strictly rising, none equal to what an unlisted byte reads as. -/
abbrev Memory := List Host.Cell

/-- The state of FX (10_state.md R13), and after `runCount` the model's own fields for what stands at its ports. -/
structure State where
  /-- The constant registers CAPACITY, MAXPAY, ITERCAP (R20, R27, R28); no command changes them. -/
  params : Config.Params
  /-- The byte array `buf`, by physical index (R17). -/
  buf : Memory
  /-- The physical index of logical index 0 (R18). -/
  start : Nat
  /-- The number of bytes in the window (R19), which AVAILABLE reads (R21). -/
  count : Nat
  /-- VALID_COUNT (R22). -/
  validCount : Word
  /-- LAST_OUTCOME (R23). -/
  lastOutcome : Word
  /-- LAST_FRAME (R24). -/
  lastFrame : Word
  /-- CK (R25). -/
  ck : Word
  /-- ERR (R26). -/
  err : Word
  /-- The RUN iteration counter `k`, absent outside a RUN (R31). -/
  runCount : Option Nat
  /-- The `cancel` input, one draw for each RUN iteration boundary (70_reset_and_hazards.md R126). -/
  cancel : Pin
  /-- Whether the downstream takes a record, one draw for each FrameOut record (70_reset_and_hazards.md R127). -/
  foReady : Pin
  /-- What the host does next, first first. -/
  inputs : List HostInput
  /-- The output history, oldest first (60_exceptions.md R110, R114). -/
  out : List OutEvent
  deriving DecidableEq, Repr

namespace State

/-- The buffer fields after a buffer primitive. -/
def setBuffer (s : State) (buf : Memory) (start count : Nat) : State :=
  { s with buf := buf, start := start, count := count }

/-- Writes VALID_COUNT. -/
def setValidCount (s : State) (w : Word) : State := { s with validCount := w }

/-- Writes LAST_OUTCOME. -/
def setLastOutcome (s : State) (w : Word) : State := { s with lastOutcome := w }

/-- Writes LAST_FRAME. -/
def setLastFrame (s : State) (w : Word) : State := { s with lastFrame := w }

/-- Writes CK. -/
def setCk (s : State) (w : Word) : State := { s with ck := w }

/-- Writes ERR. -/
def setErr (s : State) (w : Word) : State := { s with err := w }

/-- Writes the RUN iteration counter. -/
def setRunCount (s : State) (k : Option Nat) : State := { s with runCount := k }

/-- What is left of the `cancel` draws. -/
def setCancel (s : State) (p : Pin) : State := { s with cancel := p }

/-- What is left of the downstream's draws. -/
def setFoReady (s : State) (p : Pin) : State := { s with foReady := p }

/-- What is left of the host's inputs. -/
def setInputs (s : State) (l : List HostInput) : State := { s with inputs := l }

/-- Adds one event to the output history. -/
def emit (s : State) (e : OutEvent) : State := { s with out := s.out ++ [e] }

end State

/-- The machine right after reset (70_reset_and_hazards.md R120), with the document's build parameters. The model's
own fields: `cancel` at 0, a downstream that takes every record, no input and no output yet (DESIGN CHOICE, entries
1, 2, 3, 9); `buf` with nothing listed (entry 5). -/
def State.reset : State where
  params := Config.Params.document
  buf := []
  start := 0
  count := 0
  validCount := 0x00000000#32
  lastOutcome := 0x0000000F#32
  lastFrame := 0x00000000#32
  ck := 0x00000000#32
  err := 0x00000000#32
  runCount := none
  cancel := { draws := [], level := false }
  foReady := { draws := [], level := true }
  inputs := []
  out := []

end Sys2Proof.Machine
end

