-- ==== Sys2Proof/Machine/Flags.lean ====
section
/-! DEFINITION. The lasting status of FX. It has no condition codes (10_state.md R30): what stands in their place are
the sticky bits of ERR (R26) and the outcome codes of LAST_OUTCOME (R23). -/

namespace Sys2Proof.Machine

/-- ERR with bit 0, OOR, set (10_state.md R26). -/
def errWithOor (err : Word) : Word := err ||| 0x00000001#32

/-- ERR with bit 1, ILL, set (10_state.md R26). -/
def errWithIll (err : Word) : Word := err ||| 0x00000002#32

/-- The code of an iteration's outcome (10_state.md R23). -/
def IterOutcome.code : IterOutcome → BitVec 4
  | .needData => 0#4
  | .noSync => 1#4
  | .junk => 2#4
  | .needHeader => 3#4
  | .badLength => 4#4
  | .needFrame => 5#4
  | .badChecksum => 6#4
  | .frameOk => 7#4

/-- The code of the reason a RUN ends with (10_state.md R23). -/
def RunReason.code : RunReason → BitVec 4
  | .stop o => o.code
  | .capExceeded => 8#4
  | .cancelled => 9#4

/-- The stops wait for more input; the others are continues (41_extractor.md R75). -/
def IterOutcome.isStop : IterOutcome → Bool
  | .needData => true
  | .noSync => true
  | .junk => false
  | .needHeader => true
  | .badLength => false
  | .needFrame => true
  | .badChecksum => false
  | .frameOk => false

/-- LAST_OUTCOME holding a code in bits [3:0], the other bits 0 (10_state.md R23). -/
def outcomeWord (code : BitVec 4) : Word := code.setWidth 32

/-- The 2-bit code of a response status (30_encoding.md R59). -/
def Status.code : Status → BitVec 2
  | .ok => 0#2
  | .oor => 1#2
  | .ill => 2#2

end Sys2Proof.Machine
end

