-- ==== Sys2Proof/Machine/Operands.lean ====
section
/-! DEFINITION. The operand forms of 30_encoding.md R53 and the words built from fields: registers (10_state.md §4),
response data (30_encoding.md R59) and the payload length (20_memory.md R37). -/

namespace Sys2Proof.Machine

/-- `imm8` as the byte a command works on (R53: unsigned, not scaled, not shifted). -/
def byteOperand (imm8 : Byte) : Byte := imm8

/-- `imm16` as an unsigned count or index from 0 to 65535 (R53). -/
def countOperand (imm16 : Half) : Nat := imm16.toNat

/-- The register `ridx` selects (R53, 10_state.md §4); none for the reserved indices 10 to 15. -/
def registerOperand (ridx : BitVec 4) : Option RegName :=
  match ridx.toNat with
  | 0 => some .capacity
  | 1 => some .available
  | 2 => some .validCount
  | 3 => some .lastOutcome
  | 4 => some .lastFrame
  | 5 => some .ck
  | 6 => some .err
  | 7 => some .maxpay
  | 8 => some .itercap
  | 9 => some .target
  | _ => none

/-- `zext_32` of a byte. -/
def wordOfByte (b : Byte) : Word := b.setWidth 32

/-- `zext_32` of a count or index, which fits 16 bits in a built FX (00_scope.md R7). -/
def wordOfNat (n : Nat) : Word := BitVec.ofNat 32 n

/-- `{16'b0, b, a}`: CK and the CKFEED response (10_state.md R25). -/
def packCk (a b : Byte) : Word := 0#16 ++ b ++ a

/-- `reg[CK][7:0]`, the accumulator `ckA` (R25). -/
def ckA (ck : Word) : Byte := ck.extractLsb' 0 8

/-- `reg[CK][15:8]`, the accumulator `ckB` (R25). -/
def ckB (ck : Word) : Byte := ck.extractLsb' 8 8

/-- `{len, id, cls}`: LAST_FRAME and TARGET (10_state.md R24, R29). -/
def packFrame (cls id : Byte) (len : Half) : Word := len ++ id ++ cls

/-- TARGET's constant value (10_state.md R29). -/
def targetWord : Word := packFrame Config.targetClass Config.targetId Config.targetLen

/-- `{k[15:0], 12'b0, reason[3:0]}`: the RUN response (30_encoding.md R59). -/
def packRun (k : Nat) (reason : BitVec 4) : Word := BitVec.ofNat 16 k ++ 0#12 ++ reason

/-- The payload length of a frame from its low and high byte (20_memory.md R37). -/
def payloadLength (low high : Byte) : Half := (high.setWidth 16 <<< 8) ||| low.setWidth 16

end Sys2Proof.Machine
end

