-- ==== Sys2Proof/Machine/Ops.lean ====
section
/-! DEFINITION. The operations the meanings share: memory, the register space, the buffer primitives
(40_ringbuffer.md R62 to R65), responses, and the two error operations (60_exceptions.md R104, R105), which are all
FX has of exceptions: no trap entry and no trap return exist (R107). -/

namespace Sys2Proof.Machine

/-- `MemRead(p, 1)` (00_scope.md R11): the listed byte, else what an unlisted byte reads as. -/
def Memory.read : Memory → Nat → Byte
  | [], _ => Config.unlistedByte
  | (q, w) :: rest, p => if q = p then w else Memory.read rest p

/-- A cell in front of a memory, unless an unlisted byte reads so already. -/
def Memory.cons (p : Nat) (v : Byte) (m : Memory) : Memory :=
  if v = Config.unlistedByte then m else (p, v) :: m

/-- `MemWrite(p, 1, v)` (00_scope.md R11), in the canonical form. -/
def Memory.write : Memory → Nat → Byte → Memory
  | [], p, v => Memory.cons p v []
  | (q, w) :: rest, p, v =>
    if q < p then (q, w) :: Memory.write rest p v
    else if q = p then Memory.cons p v rest
    else Memory.cons p v ((q, w) :: rest)

/-- The canonical form: addresses strictly rising, no cell equal to what an unlisted byte reads as. -/
def Memory.wf : Memory → Bool
  | [] => true
  | (q, w) :: rest => (w != Config.unlistedByte) && rest.all (fun c => q < c.1) && Memory.wf rest

/-- Every listed address is a physical index of a buffer of `c` bytes (10_state.md R17). -/
def Memory.below (m : Memory) (c : Nat) : Bool := m.all (fun cell => cell.1 < c)

/-- The physical index of logical index `i` (20_memory.md R34). -/
def physical (s : State) (i : Nat) : Nat := (s.start + i) % s.params.capacity

/-- `Peek(i)` (00_scope.md R11): the byte at logical index `i`, meant for `i < count` only. -/
def peekByte (s : State) (i : Nat) : Byte := Memory.read s.buf (physical s i)

/-- The `n` bytes from logical index `i` on, in stream order. -/
def peekRange (s : State) (i n : Nat) : List Byte := (List.range n).map (fun j => peekByte s (i + j))

/-- The logical window, oldest byte first (10_state.md R17, R19). -/
def window (s : State) : List Byte := peekRange s 0 s.count

/-- Drops logical 0 (40_ringbuffer.md R62, the eviction). -/
def evictOldest (s : State) : State :=
  s.setBuffer s.buf ((s.start + 1) % s.params.capacity) (s.count - 1)

/-- The state `Append` writes its byte in: the oldest byte evicted if the buffer is full (R62). -/
def makeRoom (s : State) : State := if s.count = s.params.capacity then evictOldest s else s

/-- The physical index `Append` writes (R62). -/
def appendAddress (s : State) : Nat := physical (makeRoom s) (makeRoom s).count

/-- `Append(b)` (40_ringbuffer.md R62). -/
def appendByte (b : Byte) (s : State) : State :=
  (makeRoom s).setBuffer (Memory.write (makeRoom s).buf (appendAddress s) b) (makeRoom s).start
    ((makeRoom s).count + 1)

/-- The number of bytes `Consume(n)` removes and returns (40_ringbuffer.md R63). -/
def consumed (n : Nat) (s : State) : Nat := min n s.count

/-- `Consume(n)` (40_ringbuffer.md R63). -/
def consumeBytes (n : Nat) (s : State) : State :=
  s.setBuffer s.buf ((s.start + consumed n s) % s.params.capacity) (s.count - consumed n s)

/-- `Clear()` (40_ringbuffer.md R64). -/
def clearBuffer (s : State) : State := s.setBuffer s.buf 0 0

/-- The sync pattern stands at logical `i` and `i + 1` (R65). -/
def syncAt (s : State) (i : Nat) : Bool :=
  peekByte s i == Config.sync0 && peekByte s (i + 1) == Config.sync1

/-- `FindSync()` (40_ringbuffer.md R65): the lowest offset from 0 to `count - 2` with the sync pattern. -/
def findSync (s : State) : Option Nat := (List.range (s.count - 1)).find? (syncAt s)

/-- `reg[r]` (10_state.md §4, 42_checksum_control.md R103): the one operation that reads registers. -/
def readRegister (r : RegName) (s : State) : Word :=
  match r with
  | .capacity => wordOfNat s.params.capacity
  | .available => wordOfNat s.count
  | .validCount => s.validCount
  | .lastOutcome => s.lastOutcome
  | .lastFrame => s.lastFrame
  | .ck => s.ck
  | .err => s.err
  | .maxpay => wordOfNat s.params.maxPayload
  | .itercap => wordOfNat s.params.iterCap
  | .target => targetWord

/-- `respond(status, data)` (00_scope.md R11): ends a command with its response. -/
def respond (status : Status) (data : Word) (s : State) : Host.Outcome State Fault Refusal :=
  .next (s.emit (.response { status := status, data := data }))

/-- `raise OutOfRange` (60_exceptions.md R104): ERR.OOR set, response (OOR, 0), nothing else. The hardware keeps
running, so this is a next state (entry 4). -/
def raiseOutOfRange (s : State) : Host.Outcome State Fault Refusal :=
  respond .oor 0#32 (s.setErr (errWithOor s.err))

/-- `raise Illegal` (60_exceptions.md R105, 30_encoding.md R56): ERR.ILL set, response (ILL, 0), nothing else; a next
state (entry 4). -/
def raiseIllegal (s : State) : Host.Outcome State Fault Refusal :=
  respond .ill 0#32 (s.setErr (errWithIll s.err))

/-- One look at an input: its value now, and what is left of its draws. -/
def Pin.sample (p : Pin) : Bool × Pin :=
  match p.draws with
  | [] => (p.level, p)
  | b :: rest => (b, { p with draws := rest })

end Sys2Proof.Machine
end

