-- ==== Sys2Proof/Machine/Buffer.lean ====
section
/-! DEFINITION. The buffer commands NOP, APPEND, PEEK, CONSUME, FINDSYNC and CLEAR (40_ringbuffer.md §2). -/

namespace Sys2Proof.Machine

/-- NOP (40_ringbuffer.md R67). -/
def execNop (s : State) : Host.Outcome State Fault Refusal := respond .ok 0#32 s

/-- APPEND imm8 (40_ringbuffer.md R68). -/
def execAppend (imm8 : Byte) (s : State) : Host.Outcome State Fault Refusal :=
  respond .ok 0#32 (appendByte (byteOperand imm8) s)

/-- PEEK imm16 (40_ringbuffer.md R70). -/
def execPeek (imm16 : Half) (s : State) : Host.Outcome State Fault Refusal :=
  if countOperand imm16 < s.count then
    respond .ok (wordOfByte (peekByte s (countOperand imm16))) s
  else raiseOutOfRange s

/-- CONSUME imm16 (40_ringbuffer.md R71). -/
def execConsume (imm16 : Half) (s : State) : Host.Outcome State Fault Refusal :=
  respond .ok (wordOfNat (consumed (countOperand imm16) s)) (consumeBytes (countOperand imm16) s)

/-- The data word of FINDSYNC (40_ringbuffer.md R72): the offset, or 0xFFFFFFFF for "not found". -/
def syncData : Option Nat → Word
  | some off => wordOfNat off
  | none => 0xFFFFFFFF#32

/-- FINDSYNC (40_ringbuffer.md R72). -/
def execFindsync (s : State) : Host.Outcome State Fault Refusal := respond .ok (syncData (findSync s)) s

/-- CLEAR (40_ringbuffer.md R73). -/
def execClear (s : State) : Host.Outcome State Fault Refusal := respond .ok 0#32 (clearBuffer s)

end Sys2Proof.Machine
end

