-- ==== Sys2Proof/Machine/Checksum.lean ====
section
/-! DEFINITION. The streaming checksum (41_extractor.md R84) and its commands CKRST and CKFEED
(42_checksum_control.md R99, R100). -/

namespace Sys2Proof.Machine

/-- One accumulation: `a` gets the byte, then `b` gets the new `a`, both modulo 256 (R84, R100). -/
def checksumStep (acc : Byte × Byte) (x : Byte) : Byte × Byte := (acc.1 + x, acc.2 + (acc.1 + x))

/-- `Fletcher8(s)` (41_extractor.md R84). -/
def fletcher8 (bytes : List Byte) : Byte × Byte := bytes.foldl checksumStep (0#8, 0#8)

/-- `reg[CK] <- {16'b0, b, a}` of a pair of sums (R86, R100). -/
def writeSums (sums : Byte × Byte) (s : State) : State := s.setCk (packCk sums.1 sums.2)

/-- CKRST (42_checksum_control.md R99). -/
def execCkrst (s : State) : Host.Outcome State Fault Refusal := respond .ok 0#32 (s.setCk 0#32)

/-- CKFEED imm8 (42_checksum_control.md R100). -/
def execCkfeed (imm8 : Byte) (s : State) : Host.Outcome State Fault Refusal :=
  let sums := checksumStep (ckA s.ck, ckB s.ck) (byteOperand imm8)
  respond .ok (packCk sums.1 sums.2) (writeSums sums s)

end Sys2Proof.Machine
end

