-- ==== Sys2Proof/Machine/Control.lean ====
section
/-! DEFINITION. Register access: RDREG (42_checksum_control.md R103). -/

namespace Sys2Proof.Machine

/-- RDREG ridx (42_checksum_control.md R103). The reserved indices 10 to 15 are illegal (30_encoding.md R55); the
decoder yields no such command, and one given to `exec` directly raises Illegal (entry 10). -/
def execRdreg (ridx : BitVec 4) (s : State) : Host.Outcome State Fault Refusal :=
  match registerOperand ridx with
  | some r => respond .ok (readRegister r s) s
  | none => raiseIllegal s

end Sys2Proof.Machine
end

