-- ==== Sys2Proof/Machine/Extractor.lean ====
section
/-! DEFINITION. The resynchronizing frame extractor (41_extractor.md): one iteration, and the commands STEP and RUN
that run it. -/

namespace Sys2Proof.Machine

/-- How an iteration ends: with an outcome, or never, because the downstream does not take its FrameOut record
(70_reset_and_hazards.md R127). -/
inductive Iteration where
  | ended (o : IterOutcome) (s : State)
  | hung (s : State)
  deriving DecidableEq, Repr

/-- The class, id and payload length of a candidate frame (41_extractor.md R81). -/
structure Header where
  cls : Byte
  id : Byte
  plen : Half
  deriving DecidableEq, Repr

/-- Step 5: the header at logical 2 to 5 (41_extractor.md R81, 20_memory.md R37). -/
def parseHeader (s : State) : Header :=
  { cls := peekByte s 2, id := peekByte s 3, plen := payloadLength (peekByte s 4) (peekByte s 5) }

/-- The length of the whole frame (41_extractor.md R83, 00_scope.md R6). -/
def frameLength (h : Header) : Nat := Config.frameOverhead + h.plen.toNat

/-- The payload bytes of a candidate frame (41_extractor.md R88). -/
def payloadBytes (h : Header) (s : State) : List Byte := peekRange s Config.headerLen h.plen.toNat

/-- The sums of step 8 over class, id, length and payload (41_extractor.md R86). -/
def frameSums (h : Header) (s : State) : Byte × Byte := fletcher8 (peekRange s 2 (4 + h.plen.toNat))

/-- Step 9's comparison with the trailer: ckA first, then ckB (41_extractor.md R87, 20_memory.md R38). -/
def trailerMatches (h : Header) (s : State) : Bool :=
  (frameSums h s).1 == peekByte s (6 + h.plen.toNat) && (frameSums h s).2 == peekByte s (7 + h.plen.toNat)

/-- Whether a header carries the target signature (00_scope.md R5). -/
def isTarget (h : Header) : Bool :=
  h.cls == Config.targetClass && h.id == Config.targetId && h.plen == Config.targetLen

/-- The record step 10 emits for a target frame (41_extractor.md R88, 60_exceptions.md R110). -/
def frameRecord (h : Header) (s : State) : FrameOut :=
  { cls := h.cls, id := h.id, len := h.plen, payload := payloadBytes h s }

/-- Step 10, items 1 and 2: the counter and LAST_FRAME (41_extractor.md R88). -/
def countFrame (h : Header) (s : State) : State :=
  (s.setValidCount (s.validCount + 1#32)).setLastFrame (packFrame h.cls h.id h.plen)

/-- `emit FrameOut`, then item 4, the removal of the whole frame: the frame is consumed only once the downstream has
taken the record (60_exceptions.md R110). -/
def emitAndConsume (h : Header) (s : State) : Iteration :=
  if (Pin.sample s.foReady).1 then
    .ended .frameOk
      (consumeBytes (frameLength h)
        ((s.setFoReady (Pin.sample s.foReady).2).emit (.frame (frameRecord h s))))
  else .hung (s.setFoReady (Pin.sample s.foReady).2)

/-- Step 10 (41_extractor.md R88). -/
def acceptFrame (h : Header) (s : State) : Iteration :=
  if isTarget h then emitAndConsume h (countFrame h s)
  else .ended .frameOk (consumeBytes (frameLength h) (countFrame h s))

/-- Steps 8 to 10: the checksum over a whole candidate frame, and what follows from it (R86, R87, R88). -/
def checkFrame (h : Header) (s : State) : Iteration :=
  if trailerMatches h s then acceptFrame h (writeSums (frameSums h s) s)
  else .ended .badChecksum (consumeBytes 2 (writeSums (frameSums h s) s))

/-- Steps 4 to 10, with the sync pattern at logical 0 (41_extractor.md R80 to R88). -/
def examineCandidate (s : State) : Iteration :=
  if s.count < Config.headerLen then .ended .needHeader s
  else if s.params.maxPayload < (parseHeader s).plen.toNat then .ended .badLength (consumeBytes 2 s)
  else if s.count < frameLength (parseHeader s) then .ended .needFrame s
  else checkFrame (parseHeader s) s

/-- `Iterate()` (41_extractor.md R76). -/
def iterate (s : State) : Iteration :=
  if s.count < 2 then .ended .needData s
  else
    match findSync s with
    | none => .ended .noSync (consumeBytes (s.count - 1) s)
    | some off => if 0 < off then .ended .junk (consumeBytes off s) else examineCandidate s

/-- STEP (41_extractor.md R94). -/
def execStep (s : State) : Host.Outcome State Fault Refusal :=
  match iterate s with
  | .ended o s' => respond .ok (outcomeWord o.code) (s'.setLastOutcome (outcomeWord o.code))
  | .hung _ => .fault .downstreamStalled

/-- Where a RUN stands after some of its iterations (41_extractor.md R95). -/
inductive RunProgress where
  /-- The loop exits with a reason. -/
  | ended (r : RunReason) (s : State)
  /-- The last iteration was a continue: the next boundary is reached. -/
  | goesOn (s : State)
  /-- The downstream does not take a record: the RUN never responds. -/
  | hung (s : State)
  deriving DecidableEq, Repr

/-- `sample cancel` at a boundary: the level, and the state with that draw used (R95). -/
def sampleCancel (s : State) : Bool × State := ((Pin.sample s.cancel).1, s.setCancel (Pin.sample s.cancel).2)

/-- `k <- k + 1` (R95, 10_state.md R31). -/
def countIteration (s : State) : State := s.setRunCount (s.runCount.map (· + 1))

/-- One turn of the loop below the cap: sample `cancel`, and if it is 0 run one iteration and count it (R95). -/
def runTurn (s : State) : RunProgress :=
  if (sampleCancel s).1 then .ended .cancelled (sampleCancel s).2
  else
    match iterate (sampleCancel s).2 with
    | .ended o s' => if o.isStop then .ended (.stop o) (countIteration s') else .goesOn (countIteration s')
    | .hung s' => .hung s'

/-- At most `n` turns of the loop. -/
def runTurns : Nat → State → RunProgress
  | 0, s => .goesOn s
  | n + 1, s =>
    match runTurn s with
    | .goesOn s' => runTurns n s'
    | .ended r s' => .ended r s'
    | .hung s' => .hung s'

/-- The boundary at `k = ITER_CAP`: `cancel` first, then the cap, which clears the buffer (R95, R106). -/
def capBoundary (s : State) : RunReason × State :=
  if (sampleCancel s).1 then (.cancelled, (sampleCancel s).2)
  else (.capExceeded, clearBuffer (sampleCancel s).2)

/-- The end of a RUN: LAST_OUTCOME, the response with `k`, and `k` gone (R95, 10_state.md R31). -/
def finishRun (r : RunReason) (s : State) : Host.Outcome State Fault Refusal :=
  respond .ok (packRun (s.runCount.getD 0) r.code)
    ((s.setLastOutcome (outcomeWord r.code)).setRunCount none)

/-- The loop of a RUN from its start, `k = 0`, through at most ITER_CAP iterations (R95). -/
def runLoop (s : State) : RunProgress := runTurns s.params.iterCap (s.setRunCount (some 0))

/-- RUN (41_extractor.md R95). -/
def execRun (s : State) : Host.Outcome State Fault Refusal :=
  match runLoop s with
  | .ended r s' => finishRun r s'
  | .goesOn s' => finishRun (capBoundary s').1 (capBoundary s').2
  | .hung _ => .fault .downstreamStalled

end Sys2Proof.Machine
end

