-- ==== Sys2Proof/Machine/Dispatch.lean ====
section
/-! DEFINITION. The meaning of each command, one arm per constructor of Instr. -/

namespace Sys2Proof.Machine

def exec (i : Instr) (s : State) : Host.Outcome State Fault Refusal :=
  match i with
  | .nop => Sys2Proof.Machine.execNop s
  | .append imm8 => Sys2Proof.Machine.execAppend imm8 s
  | .peek imm16 => Sys2Proof.Machine.execPeek imm16 s
  | .consume imm16 => Sys2Proof.Machine.execConsume imm16 s
  | .findsync => Sys2Proof.Machine.execFindsync s
  | .clear => Sys2Proof.Machine.execClear s
  | .step => Sys2Proof.Machine.execStep s
  | .run => Sys2Proof.Machine.execRun s
  | .ckrst => Sys2Proof.Machine.execCkrst s
  | .ckfeed imm8 => Sys2Proof.Machine.execCkfeed imm8 s
  | .rdreg ridx => Sys2Proof.Machine.execRdreg ridx s

end Sys2Proof.Machine
end

