-- ==== Sys2Proof/WellFormed.lean ====
section
/-! DEFINITION. Which terms of `Instr` are commands of FX. The operand widths of R52 are in the types, so the one
check left is RDREG's register index (30_encoding.md R55). -/

namespace Sys2Proof

/-- `i` is a legal command: RDREG names one of the registers 0 to 9 (30_encoding.md R55, 10_state.md §4). -/
def Instr.wellFormed : Instr → Bool
  | .nop => true
  | .append _ => true
  | .peek _ => true
  | .consume _ => true
  | .findsync => true
  | .clear => true
  | .step => true
  | .run => true
  | .ckrst => true
  | .ckfeed _ => true
  | .rdreg ridx => decide (ridx.toNat < 10)

end Sys2Proof
end

