-- ==== Sys2Proof/Decode.lean ====
section
/-! DEFINITION. Decoding and encoding command words (30_encoding.md R52 to R58), the table's rows (R54) and the byte
order of a byte-wide link (20_memory.md R39). -/

namespace Sys2Proof

/-- The four operand formats of 30_encoding.md R52. -/
inductive Format where
  /-- No operand. -/
  | z
  /-- A byte in bits [7:0]. -/
  | b
  /-- A 16-bit value in bits [15:0]. -/
  | h
  /-- A register index in bits [3:0]. -/
  | r
  deriving DecidableEq, Repr

/-- Why a word is no command (30_encoding.md R55, R56); `shortWord` is for a byte link that ended inside a word
(DESIGN CHOICE, safe, entry 11). -/
inductive DecodeReject where
  /-- Opcode 0xB to 0xF. -/
  | reservedOpcode
  /-- A 1 in a "must be 0" field. -/
  | reservedBits
  /-- RDREG of index 10 to 15. -/
  | reservedRegister
  /-- Fewer than four bytes on a byte-wide link. -/
  | shortWord
  deriving DecidableEq, Repr

/-- `w[31:28]` (R52). -/
def opcodeOf (w : Word) : BitVec 4 := w.extractLsb' 28 4

/-- `cmd[7:0]`, the field of format B (R52, R53). -/
def imm8Of (w : Word) : Byte := w.extractLsb' 0 8

/-- `cmd[15:0]`, the field of format H (R52, R53). -/
def imm16Of (w : Word) : Half := w.extractLsb' 0 16

/-- `cmd[3:0]`, the field of format R (R52, R53). -/
def ridxOf (w : Word) : BitVec 4 := w.extractLsb' 0 4

/-- The format of an opcode, none for the reserved ones (R54). -/
def formatOf (op : BitVec 4) : Option Format :=
  match op.toNat with
  | 0x0 => some .z
  | 0x1 => some .b
  | 0x2 => some .h
  | 0x3 => some .h
  | 0x4 => some .z
  | 0x5 => some .z
  | 0x6 => some .z
  | 0x7 => some .z
  | 0x8 => some .z
  | 0x9 => some .b
  | 0xA => some .r
  | _ => none

/-- Whether every "must be 0" bit of the format is 0 in the word (R52, R55). -/
def reservedClear (f : Format) (w : Word) : Bool :=
  match f with
  | .z => w.extractLsb' 0 28 == 0#28
  | .b => w.extractLsb' 8 20 == 0#20
  | .h => w.extractLsb' 16 12 == 0#12
  | .r => w.extractLsb' 4 24 == 0#24

/-- The command an opcode names, with the operand its format takes from the word (R53, R54). -/
def commandOf (w : Word) : Option Instr :=
  match (opcodeOf w).toNat with
  | 0x0 => some .nop
  | 0x1 => some (.append (imm8Of w))
  | 0x2 => some (.peek (imm16Of w))
  | 0x3 => some (.consume (imm16Of w))
  | 0x4 => some .findsync
  | 0x5 => some .clear
  | 0x6 => some .step
  | 0x7 => some .run
  | 0x8 => some .ckrst
  | 0x9 => some (.ckfeed (imm8Of w))
  | 0xA => some (.rdreg (ridxOf w))
  | _ => none

/-- Decoding in the order of R55: the opcode, then the format's reserved bits, then RDREG's index. Total: every word
is one command or is rejected by name. -/
def decode (w : Word) : Except DecodeReject Instr :=
  match formatOf (opcodeOf w), commandOf w with
  | some f, some i =>
    if reservedClear f w then
      if i.wellFormed then .ok i else .error .reservedRegister
    else .error .reservedBits
  | _, _ => .error .reservedOpcode

/-- The word of a command (R52, R54; the "Encoding by syntax" list of R60). -/
def encode : Instr → Word
  | .nop => 0x0#4 ++ 0#28
  | .append imm8 => 0x1#4 ++ 0#20 ++ imm8
  | .peek imm16 => 0x2#4 ++ 0#12 ++ imm16
  | .consume imm16 => 0x3#4 ++ 0#12 ++ imm16
  | .findsync => 0x4#4 ++ 0#28
  | .clear => 0x5#4 ++ 0#28
  | .step => 0x6#4 ++ 0#28
  | .run => 0x7#4 ++ 0#28
  | .ckrst => 0x8#4 ++ 0#28
  | .ckfeed imm8 => 0x9#4 ++ 0#20 ++ imm8
  | .rdreg ridx => 0xA#4 ++ 0#24 ++ ridx

/-- The "match" and "mask" of the command's row in spec/opcode_table.json (R54). -/
def tableRow : Instr → Word × Word
  | .nop => (0x00000000#32, 0xFFFFFFFF#32)
  | .append _ => (0x10000000#32, 0xFFFFFF00#32)
  | .peek _ => (0x20000000#32, 0xFFFF0000#32)
  | .consume _ => (0x30000000#32, 0xFFFF0000#32)
  | .findsync => (0x40000000#32, 0xFFFFFFFF#32)
  | .clear => (0x50000000#32, 0xFFFFFFFF#32)
  | .step => (0x60000000#32, 0xFFFFFFFF#32)
  | .run => (0x70000000#32, 0xFFFFFFFF#32)
  | .ckrst => (0x80000000#32, 0xFFFFFFFF#32)
  | .ckfeed _ => (0x90000000#32, 0xFFFFFF00#32)
  | .rdreg _ => (0xA0000000#32, 0xFFFFFFF0#32)

/-- The bytes of a word on a byte-wide link, least significant first (20_memory.md R39). -/
def bytesOfWord (w : Word) : List Byte :=
  [w.extractLsb' 0 8, w.extractLsb' 8 8, w.extractLsb' 16 8, w.extractLsb' 24 8]

/-- The word four bytes of a byte-wide link make, the first the least significant (20_memory.md R39). -/
def wordOfBytes (b0 b1 b2 b3 : Byte) : Word := b3 ++ b2 ++ b1 ++ b0

/-- Decoding from a byte-wide link: the first command and the bytes after it. Total on any bytes. -/
def decodeBytes : List Byte → Except DecodeReject (Instr × List Byte)
  | b0 :: b1 :: b2 :: b3 :: rest =>
    match decode (wordOfBytes b0 b1 b2 b3) with
    | .ok i => .ok (i, rest)
    | .error e => .error e
  | _ => .error .shortWord

/-- The word whose bits 0 to nbits-1 are those of `w` and whose other bits are 0. -/
def tableWord (nbits w : Nat) : Word := BitVec.ofNat 32 (w % 2 ^ nbits)

/-- The instruction the decoder reads from the bits `w` of a row of spec/opcode_table.json; every row is one 32-bit
word (R58). -/
def decodeTableWord (nbits w : Nat) : Option Instr :=
  match decode (tableWord nbits w) with
  | .ok i => some i
  | .error _ => none

end Sys2Proof
end

