-- ==== Sys2Proof/Machine/Ports.lean ====
section
/-! DEFINITION. The boundary of FX: reset (70_reset_and_hazards.md R119), a command cut short by reset, the byte
transfers of a FrameOut record (60_exceptions.md R110), and the host's next input. -/

namespace Sys2Proof.Machine

/-- What a reset leaves: every piece of FX's state at its reset value (R119, R120). The build parameters, the inputs
and what has already left FX are not touched by it. -/
def afterReset (s : State) : State :=
  { State.reset with
    params := s.params, cancel := s.cancel, foReady := s.foReady, inputs := s.inputs, out := s.out }

/-- The state of a RUN's progress, however it stands. -/
def RunProgress.state : RunProgress → State
  | .ended _ s => s
  | .goesOn s => s
  | .hung s => s

/-- The state of an iteration, however it stands. -/
def Iteration.state : Iteration → State
  | .ended _ s => s
  | .hung s => s

/-- The work a command has done when `rst` rises after at most `done` iterations of it. Only STEP and RUN do anything
a reset does not undo: the records they have emitted stay delivered (R119; entry 7). -/
def progressOf (i : Instr) (done : Nat) (s : State) : State :=
  match i with
  | .nop => s
  | .append _ => s
  | .peek _ => s
  | .consume _ => s
  | .findsync => s
  | .clear => s
  | .step => if done = 0 then s else (iterate s).state
  | .run => (runTurns (min done s.params.iterCap) (s.setRunCount (some 0))).state
  | .ckrst => s
  | .ckfeed _ => s
  | .rdreg _ => s

/-- A command abandoned by reset: no response, and FX reset (70_reset_and_hazards.md R119). -/
def abandon (w : Word) (done : Nat) (s : State) : State :=
  match decode w with
  | .ok i => afterReset (progressOf i done s)
  | .error _ => afterReset s

/-- One byte transfer on the frame-output port (30_encoding.md R50). -/
structure Transfer where
  data : Byte
  first : Bool
  last : Bool
  deriving DecidableEq, Repr

/-- The transfers of a record: `fo_data`, `fo_first`, `fo_last` for each payload byte in stream order; the class, id
and length are not sent (60_exceptions.md R110). -/
def FrameOut.transfers (f : FrameOut) : List Transfer :=
  f.payload.mapIdx fun i b => { data := b, first := i == 0, last := i + 1 == f.payload.length }

/-- The host's next input, and the state with it taken. -/
def takeInput (s : State) : Option (HostInput × State) :=
  match s.inputs with
  | [] => none
  | e :: rest => some (e, s.setInputs rest)

/-- `s` with a command word first among the host's inputs. -/
def offerWord (s : State) (w : Word) : State := s.setInputs (.command w :: s.inputs)

end Sys2Proof.Machine
end

