-- ==== Sys2Proof/Machine/Step.lean ====
section
/-! DEFINITION. One step of FX: the host's next input and everything FX does about it (30_encoding.md R50, R51). FX
has no program counter (10_state.md R15): a command is fetched from the command port. -/

namespace Sys2Proof.Machine

/-- One transaction: a command with all its effects and its response (20_memory.md R43), an illegal word with its
error response (30_encoding.md R56), or a reset. With nothing from the host FX is idle and keeps all its state
(60_exceptions.md R118). -/
def step (s : State) : Host.Outcome State Fault Refusal :=
  match takeInput s with
  | none => .next s
  | some (.command w, s') =>
    match decode w with
    | .ok i => exec i s'
    | .error _ => raiseIllegal s'
  | some (.reset, s') => .next (afterReset s')
  | some (.interrupted w done, s') => .next (abandon w done s')

/-- `s` with the instruction whose bits are `w` as the host's next command (entry 1). -/
def State.withFetchWord (s : State) (nbits w : Nat) : State := offerWord s (tableWord nbits w)

end Sys2Proof.Machine
end

