-- ==== Sys2Proof/Machine/Assembler.lean ====
section
/-! DEFINITION. The assembler syntax (30_encoding.md R60) and the pseudo-commands (R61): a line of text to the
commands it stands for. What R60 leaves open (letter case, separators) is entry 12. -/

namespace Sys2Proof.Assembler

/-- A line after reading: a command or a pseudo-command (R60, R61). -/
inductive Line where
  | command (i : Instr)
  /-- `APPENDS b0, ..., bn-1`, the document's bulk append. -/
  | appends (bytes : List Byte)
  /-- `CKSUM b0, ..., bn-1`, the step-8 sums over given bytes. -/
  | cksum (bytes : List Byte)
  /-- `CAP`. -/
  | cap
  /-- `AVAIL`. -/
  | avail
  /-- `DRAIN`. -/
  | drain
  deriving DecidableEq, Repr

/-- The commands a line stands for, in order (R61). -/
def Line.expand : Line → List Instr
  | .command i => [i]
  | .appends bytes => bytes.map .append
  | .cksum bytes => .ckrst :: bytes.map .ckfeed
  | .cap => [.rdreg 0#4]
  | .avail => [.rdreg 1#4]
  | .drain => [.consume 0xFFFF#16]

/-- The value of a decimal digit. -/
def decimalDigit (c : Char) : Option Nat :=
  if '0'.toNat ≤ c.toNat ∧ c.toNat ≤ '9'.toNat then some (c.toNat - '0'.toNat) else none

/-- The value of a hexadecimal digit, of either case. -/
def hexDigit (c : Char) : Option Nat :=
  if 'a'.toNat ≤ c.toNat ∧ c.toNat ≤ 'f'.toNat then some (c.toNat - 'a'.toNat + 10)
  else if 'A'.toNat ≤ c.toNat ∧ c.toNat ≤ 'F'.toNat then some (c.toNat - 'A'.toNat + 10)
  else decimalDigit c

/-- The number a digit string continues `acc` to. -/
def readDigits (digit : Char → Option Nat) (base : Nat) : List Char → Nat → Option Nat
  | [], acc => some acc
  | c :: cs, acc =>
    match digit c with
    | some d => readDigits digit base cs (acc * base + d)
    | none => none

/-- An immediate, decimal or `0x` hexadecimal (R60). -/
def readNumber : List Char → Option Nat
  | [] => none
  | '0' :: 'x' :: c :: cs => readDigits hexDigit 16 (c :: cs) 0
  | c :: cs => readDigits decimalDigit 10 (c :: cs) 0

/-- An immediate below a bound; out of range is an error, never a truncation (R60). -/
def readBelow (bound : Nat) (cs : List Char) : Option Nat :=
  match readNumber cs with
  | some n => if n < bound then some n else none
  | none => none

/-- A byte operand, 0 to 255 (R60). -/
def readImm8 (cs : List Char) : Option Byte := (readBelow 256 cs).map (BitVec.ofNat 8)

/-- A 16-bit operand, 0 to 65535 (R60). -/
def readImm16 (cs : List Char) : Option Half := (readBelow 65536 cs).map (BitVec.ofNat 16)

/-- The register names and their indices (10_state.md §4). -/
def registerNames : List (List Char × BitVec 4) :=
  [("CAPACITY".toList, 0#4), ("AVAILABLE".toList, 1#4), ("VALID_COUNT".toList, 2#4),
   ("LAST_OUTCOME".toList, 3#4), ("LAST_FRAME".toList, 4#4), ("CK".toList, 5#4), ("ERR".toList, 6#4),
   ("MAXPAY".toList, 7#4), ("ITERCAP".toList, 8#4), ("TARGET".toList, 9#4)]

/-- RDREG's operand: a register name or its index 0 to 9 (R60). -/
def readRegister (cs : List Char) : Option (BitVec 4) :=
  match registerNames.find? (fun row => row.1 == cs) with
  | some row => some row.2
  | none => (readBelow 10 cs).map (BitVec.ofNat 4)

/-- The mnemonics without an operand (30_encoding.md R54, R61). -/
def plainMnemonics : List (List Char × Line) :=
  [("NOP".toList, .command .nop), ("FINDSYNC".toList, .command .findsync), ("CLEAR".toList, .command .clear),
   ("STEP".toList, .command .step), ("RUN".toList, .command .run), ("CKRST".toList, .command .ckrst),
   ("CAP".toList, .cap), ("AVAIL".toList, .avail), ("DRAIN".toList, .drain)]

/-- The mnemonics with one operand, and how each reads it (30_encoding.md R54, R60). -/
def operandMnemonics : List (List Char × (List Char → Option Line)) :=
  [("APPEND".toList, fun cs => (readImm8 cs).map fun b => .command (.append b)),
   ("CKFEED".toList, fun cs => (readImm8 cs).map fun b => .command (.ckfeed b)),
   ("PEEK".toList, fun cs => (readImm16 cs).map fun n => .command (.peek n)),
   ("CONSUME".toList, fun cs => (readImm16 cs).map fun n => .command (.consume n)),
   ("RDREG".toList, fun cs => (readRegister cs).map fun r => .command (.rdreg r))]

/-- The mnemonics with a list of bytes (R61). -/
def listMnemonics : List (List Char × (List Byte → Line)) :=
  [("APPENDS".toList, .appends), ("CKSUM".toList, .cksum)]

/-- Reading a mnemonic with its operands; none is an assembly error. -/
def readLine (mnemonic : List Char) (operands : List (List Char)) : Option Line :=
  match listMnemonics.find? (fun row => row.1 == mnemonic) with
  | some row => (operands.mapM readImm8).map row.2
  | none =>
    match operands with
    | [] => (plainMnemonics.find? (fun row => row.1 == mnemonic)).map (·.2)
    | [cs] => (operandMnemonics.find? (fun row => row.1 == mnemonic)).bind (·.2 cs)
    | _ => none

/-- Blanks and commas separate the words of a line. -/
def isSeparator (c : Char) : Bool := c == ' ' || c == ',' || c == '\t'

/-- The words of a line up to a `;`, which starts a comment (R60). `acc` holds the word begun so far, reversed. -/
def words : List Char → List Char → List (List Char)
  | [], acc => if acc = [] then [] else [acc.reverse]
  | c :: cs, acc =>
    if c = ';' then (if acc = [] then [] else [acc.reverse])
    else if isSeparator c then (if acc = [] then words cs [] else acc.reverse :: words cs [])
    else words cs (c :: acc)

/-- The commands of one line of text; none is an assembly error, a line without words is no command (R60). -/
def assembleLine (text : List Char) : Option (List Instr) :=
  match words text [] with
  | [] => some []
  | mnemonic :: operands => (readLine mnemonic operands).map Line.expand

/-- The command words of a program, line by line. -/
def assemble (lines : List (List Char)) : Option (List Word) :=
  (lines.mapM assembleLine).map fun commands => (commands.flatten).map encode

end Sys2Proof.Assembler
end

