-- ==== Sys2Proof/Safety.lean ====
section
/-! DEFINITION. The terms claims are stated in: the invariant of a running FX, what is observed of it, the host's
duties, and the frames and streams the rules speak of. -/

namespace Sys2Proof.Machine

/-- The LAST_OUTCOME values that some command or reset produces (10_state.md R23). -/
def legalOutcome (w : Word) : Bool := decide (w.toNat ≤ 9) || w == 0x0000000F#32

/-- What holds of FX between commands: the build parameters are within R7's bounds, `start` and `count` within
R18's and R19's, `buf` is canonical and lists physical indices only (R17), the reserved bits and codes read as
10_state.md R23, R25 and R26 say, and no RUN is in progress (R31). -/
structure State.Inv (s : State) : Prop where
  params : s.params.Valid
  start : s.start < s.params.capacity
  count : s.count ≤ s.params.capacity
  canonical : Memory.wf s.buf = true
  listed : Memory.below s.buf s.params.capacity = true
  outcome : legalOutcome s.lastOutcome = true
  ckReserved : s.ck.extractLsb' 16 16 = 0#16
  errReserved : s.err.extractLsb' 2 30 = 0#30
  idle : s.runCount = none

/-- The response of an event, if it is one. -/
def OutEvent.response? : OutEvent → Option Response
  | .response r => some r
  | .frame _ => none

/-- The record of an event, if it is one. -/
def OutEvent.frame? : OutEvent → Option FrameOut
  | .frame f => some f
  | .response _ => none

/-- The responses so far, in issue order (60_exceptions.md R114). -/
def State.responses (s : State) : List Response := s.out.filterMap OutEvent.response?

/-- The FrameOut records so far, in stream order (60_exceptions.md R114). -/
def State.frames (s : State) : List FrameOut := s.out.filterMap OutEvent.frame?

/-- Two states no command tells apart: equal but for `start` and the bytes of `buf` outside the window
(10_state.md R19, R32). -/
structure SameView (s t : State) : Prop where
  params : s.params = t.params
  count : s.count = t.count
  window : window s = window t
  validCount : s.validCount = t.validCount
  lastOutcome : s.lastOutcome = t.lastOutcome
  lastFrame : s.lastFrame = t.lastFrame
  ck : s.ck = t.ck
  err : s.err = t.err
  runCount : s.runCount = t.runCount
  cancel : s.cancel = t.cancel
  foReady : s.foReady = t.foReady
  inputs : s.inputs = t.inputs
  out : s.out = t.out

/-- Two outcomes of a step no command tells apart. -/
def SameOutcome : Host.Outcome State Fault Refusal → Host.Outcome State Fault Refusal → Prop
  | .next s, .next t => SameView s t
  | .fault r, .fault q => r = q
  | .refused r, .refused q => r = q
  | _, _ => False

/-- An input that reads the same whenever FX looks at it. -/
def Pin.Always (p : Pin) (b : Bool) : Prop := p.level = b ∧ ∀ d ∈ p.draws, d = b

/-- The value an input has at the `n`th look at it, counted from 0 (70_reset_and_hazards.md R126). -/
def Pin.value (p : Pin) (n : Nat) : Bool := p.draws.getD n p.level

/-- What is left of an input after `n` looks at it. -/
def Pin.rest (p : Pin) (n : Nat) : Pin := { p with draws := p.draws.drop n }

/-- The host duty of 60_exceptions.md R112: the downstream takes every record. -/
def State.DownstreamTakes (s : State) : Prop := s.foReady.Always true

/-- `cancel = 0` at every boundary. -/
def State.NeverCancelled (s : State) : Prop := s.cancel.Always false

/-- The premise of a claim about an error-free command sequence (60_exceptions.md R104). -/
def State.ErrClear (s : State) : Prop := s.err = 0#32

/-- Everything but the buffer is the same in both states. -/
structure SameOutsideBuffer (s t : State) : Prop where
  params : t.params = s.params
  validCount : t.validCount = s.validCount
  lastOutcome : t.lastOutcome = s.lastOutcome
  lastFrame : t.lastFrame = s.lastFrame
  ck : t.ck = s.ck
  err : t.err = s.err
  runCount : t.runCount = s.runCount
  cancel : t.cancel = s.cancel
  foReady : t.foReady = s.foReady
  inputs : t.inputs = s.inputs

/-- No byte of the buffer, and neither `start` nor `count`, differs between the states. -/
structure SameBuffer (s t : State) : Prop where
  start : t.start = s.start
  count : t.count = s.count
  bytes : ∀ p, Memory.read t.buf p = Memory.read s.buf p

/-- A sync pattern stands at offset `i` of a byte sequence (00_scope.md R4). -/
def SyncIn (l : List Byte) (i : Nat) : Prop := l[i]? = some Config.sync0 ∧ l[i + 1]? = some Config.sync1

/-- A byte sequence without a sync pattern. -/
def NoSync (l : List Byte) : Prop := ∀ i, ¬ SyncIn l i

/-- The payload length a byte sequence that starts with a header gives: bytes 4 and 5, little-endian
(20_memory.md R37). -/
def PayloadLen (l : List Byte) (n : Nat) : Prop :=
  ∃ lo hi : Byte, l[4]? = some lo ∧ l[5]? = some hi ∧ n = lo.toNat + 256 * hi.toNat

/-- A whole candidate frame of legal length stands at logical 0 (41_extractor.md R80 to R83). -/
structure Candidate (s : State) (cls id : Byte) (plen : Nat) : Prop where
  sync : SyncIn (window s) 0
  cls : (window s)[2]? = some cls
  id : (window s)[3]? = some id
  len : PayloadLen (window s) plen
  legal : plen ≤ s.params.maxPayload
  whole : 8 + plen ≤ s.count

/-- The sums over a candidate frame's class, id, length and payload (41_extractor.md R86). -/
def sumsOf (l : List Byte) (plen : Nat) : Byte × Byte := fletcher8 ((l.drop 2).take (4 + plen))

/-- The two bytes after the payload are the sums, ckA first (41_extractor.md R87, 20_memory.md R38). -/
def TrailerAgrees (l : List Byte) (plen : Nat) : Prop :=
  l[6 + plen]? = some (sumsOf l plen).1 ∧ l[7 + plen]? = some (sumsOf l plen).2

/-- `{16'b0, b, a}` as a number (10_state.md R25). -/
def sumsWord (sums : Byte × Byte) : Word := BitVec.ofNat 32 (sums.1.toNat + 256 * sums.2.toNat)

/-- The state with `n` bytes gone from the front of the window (40_ringbuffer.md R63). -/
def State.dropped (s : State) (n : Nat) : State :=
  { s with start := (s.start + n) % s.params.capacity, count := s.count - n }

/-- The state after STEP has recorded and answered an outcome code (41_extractor.md R94). -/
def State.answered (s : State) (code : Nat) : State :=
  { s with lastOutcome := BitVec.ofNat 32 code, out := s.out ++ [.response ⟨.ok, BitVec.ofNat 32 code⟩] }

/-- A continue's code (41_extractor.md R75, 10_state.md R23). -/
def IsContinueCode (code : Nat) : Prop := code = 2 ∨ code = 4 ∨ code = 6 ∨ code = 7

/-- The responses of STEPs with these outcome codes (41_extractor.md R94). -/
def stepResponses (codes : List Nat) : List Response := codes.map fun c => ⟨.ok, BitVec.ofNat 32 c⟩

/-- What a RUN from `s` leaves if its `k` iterations, run as STEPs, leave `u` and emit `fs`, and it ends with a
reason's code after `looks` looks at `cancel`: the STEPs' state, with the RUN's one response in place of theirs
(41_extractor.md R95). -/
def State.ranTo (s u : State) (fs : List FrameOut) (k code looks : Nat) : State :=
  { u with
    inputs := s.inputs, cancel := s.cancel.rest looks, lastOutcome := BitVec.ofNat 32 code,
    out := s.out ++ fs.map .frame ++ [.response ⟨.ok, BitVec.ofNat 32 (2 ^ 16 * k + code)⟩] }

/-- The bytes the checksum of a frame covers (41_extractor.md R86). -/
def checkedBytes (cls id : Byte) (payload : List Byte) : List Byte :=
  cls :: id :: BitVec.ofNat 8 payload.length :: BitVec.ofNat 8 (payload.length / 256) :: payload

/-- A frame with a correct checksum: sync, class, id, length, payload, ckA, ckB (00_scope.md §6, R6). -/
def validFrame (cls id : Byte) (payload : List Byte) : List Byte :=
  Config.sync0 :: Config.sync1 :: checkedBytes cls id payload ++
    [(fletcher8 (checkedBytes cls id payload)).1, (fletcher8 (checkedBytes cls id payload)).2]

/-- The commands the host issues for a list of instructions. -/
def issue (is : List Instr) : List HostInput := is.map fun i => .command (encode i)

/-- A host that appends a stream chunk by chunk, a RUN after each chunk, and one more RUN (41_extractor.md R98). -/
def chunkedHost (chunks : List (List Byte)) : List HostInput :=
  chunks.flatMap (fun c => issue (c.map Instr.append ++ [.run])) ++ issue [.run]

/-- `n` steps of FX, ending early at a fault (`Host.Core.run` of this machine). -/
def runs : Nat → State → Host.Outcome State Fault Refusal
  | 0, s => .next s
  | n + 1, s =>
    match step s with
    | .next t => runs n t
    | .fault f => .fault f
    | .refused r => .refused r

/-- The illegal words as 30_encoding.md R56 lists them, by the arithmetic of the word: a reserved opcode, a 1 in a
"must be 0" field, or RDREG of index 10 to 15. -/
def IllegalWord (w : Word) : Prop :=
  let op := w.toNat / 2 ^ 28
  let area := w.toNat % 2 ^ 28
  0xB ≤ op ∨ (op ∈ [0x0, 0x4, 0x5, 0x6, 0x7, 0x8] ∧ area ≠ 0) ∨ (op ∈ [0x1, 0x9] ∧ area / 2 ^ 8 ≠ 0) ∨
    (op ∈ [0x2, 0x3] ∧ area / 2 ^ 16 ≠ 0) ∨ (op = 0xA ∧ (area / 2 ^ 4 ≠ 0 ∨ 10 ≤ area % 2 ^ 4))

/-- The command of a legal word by the opcode map of 30_encoding.md R54 and the operands of R53. -/
def wordReading (w : Word) : Instr :=
  match w.toNat / 2 ^ 28 with
  | 0x0 => .nop
  | 0x1 => .append (BitVec.ofNat 8 w.toNat)
  | 0x2 => .peek (BitVec.ofNat 16 w.toNat)
  | 0x3 => .consume (BitVec.ofNat 16 w.toNat)
  | 0x4 => .findsync
  | 0x5 => .clear
  | 0x6 => .step
  | 0x7 => .run
  | 0x8 => .ckrst
  | 0x9 => .ckfeed (BitVec.ofNat 8 w.toNat)
  | _ => .rdreg (BitVec.ofNat 4 w.toNat)

end Sys2Proof.Machine
end

