-- ==== Sys2Proof/Certificates/Slice0/Obligations.lean ====
section
/-! DEFINITION. The statements about FX for the provers, from the numbered rules of spec/. -/

open Sys2Proof Sys2Proof.Machine

/-! ## Encoding -/

/-- 30_encoding.md §2, §3: a legal command, encoded, decodes to itself, for every operand value. -/
def Obligations.DecodeOfEncodeIsTheInstruction : Prop :=
  ∀ i : Instr, i.wellFormed = true → decode (encode i) = .ok i

/-- 30_encoding.md §2, §3: a word that decodes is the one encoding of a legal command. -/
def Obligations.DecodedWordIsTheEncodingOfItsCommand : Prop :=
  ∀ (w : Word) (i : Instr), decode w = .ok i → i.wellFormed = true ∧ encode i = w

/-- 30_encoding.md R55: every word is either one command, the one the opcode map names, or illegal. -/
def Obligations.EveryWordIsOneCommandOrIllegal : Prop :=
  ∀ w : Word,
    (IllegalWord w → ∃ e, decode w = .error e) ∧ (¬ IllegalWord w → decode w = .ok (wordReading w))

/-- 30_encoding.md R60, "Encoding by syntax": a word of each format, read as the spec writes it. -/
def Obligations.SampleWordsDecodeAsTheSpecWritesThem : Prop :=
  decode 0x00000000#32 = .ok .nop ∧ decode 0x100000B5#32 = .ok (.append 0xB5#8) ∧
  decode 0x2000FFFF#32 = .ok (.peek 0xFFFF#16) ∧ decode 0x30001FFE#32 = .ok (.consume 0x1FFE#16) ∧
  decode 0x70000000#32 = .ok .run ∧ decode 0x900000FF#32 = .ok (.ckfeed 0xFF#8) ∧
  decode 0xA0000009#32 = .ok (.rdreg 9#4) ∧ decode 0xA000000A#32 = .error .reservedRegister ∧
  decode 0xB0000000#32 = .error .reservedOpcode ∧ decode 0x20010000#32 = .error .reservedBits

/-- 20_memory.md §2: on a byte-wide link a word's least significant byte goes first. -/
def Obligations.ByteLinkCarriesLeastSignificantByteFirst : Prop :=
  ∀ (b0 b1 b2 b3 : Byte) (rest : List Byte),
    (wordOfBytes b0 b1 b2 b3).toNat =
      b0.toNat + 2 ^ 8 * b1.toNat + 2 ^ 16 * b2.toNat + 2 ^ 24 * b3.toNat ∧
    bytesOfWord (wordOfBytes b0 b1 b2 b3) = [b0, b1, b2, b3] ∧
    (∀ i, decode (wordOfBytes b0 b1 b2 b3) = .ok i → decodeBytes (b0 :: b1 :: b2 :: b3 :: rest) = .ok (i, rest))

/-- 30_encoding.md §5 (R60): an immediate out of range is an assembly error, never a truncation, and one in range is
the operand: the bytes of APPEND, CKFEED, APPENDS and CKSUM, the 16-bit values of PEEK and CONSUME, and RDREG's index
0 to 9; RDREG also takes the ten register names. (The spelling of numbers and lines beyond R60 is the model's,
entry 12.) -/
def Obligations.AssemblerRefusesImmediatesOutOfRange : Prop :=
  (∀ (cs : List Char) (n : Nat), Assembler.readNumber cs = some n →
    (256 ≤ n → Assembler.readLine "APPEND".toList [cs] = none ∧ Assembler.readLine "CKFEED".toList [cs] = none) ∧
    (65536 ≤ n → Assembler.readLine "PEEK".toList [cs] = none ∧ Assembler.readLine "CONSUME".toList [cs] = none) ∧
    (10 ≤ n → Assembler.readLine "RDREG".toList [cs] = none) ∧
    (n < 256 →
      Assembler.readLine "APPEND".toList [cs] = some (.command (.append (BitVec.ofNat 8 n))) ∧
      Assembler.readLine "CKFEED".toList [cs] = some (.command (.ckfeed (BitVec.ofNat 8 n)))) ∧
    (n < 65536 →
      Assembler.readLine "PEEK".toList [cs] = some (.command (.peek (BitVec.ofNat 16 n))) ∧
      Assembler.readLine "CONSUME".toList [cs] = some (.command (.consume (BitVec.ofNat 16 n)))) ∧
    (n < 10 → Assembler.readLine "RDREG".toList [cs] = some (.command (.rdreg (BitVec.ofNat 4 n))))) ∧
  (∀ (css : List (List Char)) (cs : List Char) (n : Nat), cs ∈ css → Assembler.readNumber cs = some n → 256 ≤ n →
    Assembler.readLine "APPENDS".toList css = none ∧ Assembler.readLine "CKSUM".toList css = none) ∧
  (∀ (css : List (List Char)) (ns : List Nat), css.map Assembler.readNumber = ns.map some → (∀ n ∈ ns, n < 256) →
    Assembler.readLine "APPENDS".toList css = some (.appends (ns.map (BitVec.ofNat 8))) ∧
    Assembler.readLine "CKSUM".toList css = some (.cksum (ns.map (BitVec.ofNat 8)))) ∧
  ["CAPACITY", "AVAILABLE", "VALID_COUNT", "LAST_OUTCOME", "LAST_FRAME", "CK", "ERR", "MAXPAY", "ITERCAP",
      "TARGET"].map (fun name => Assembler.readLine "RDREG".toList [name.toList]) =
    (List.range 10).map fun r => some (.command (.rdreg (BitVec.ofNat 4 r)))

/-- 30_encoding.md R61: the pseudo-commands' expansions, and DRAIN empties the buffer. -/
def Obligations.PseudoCommandsExpandAndDrainEmpties : Prop :=
  (∀ bytes : List Byte,
    (Assembler.Line.appends bytes).expand = bytes.map .append ∧
    (Assembler.Line.cksum bytes).expand = .ckrst :: bytes.map .ckfeed) ∧
  Assembler.Line.cap.expand.map encode = [0xA0000000#32] ∧
  Assembler.Line.avail.expand.map encode = [0xA0000001#32] ∧
  Assembler.Line.drain.expand.map encode = [0x3000FFFF#32] ∧
  ∀ s : State, s.Inv → s.inputs = issue Assembler.Line.drain.expand →
    ∃ t, runs 1 s = .next t ∧ window t = [] ∧ t.count = 0 ∧
      t.out = s.out ++ [.response ⟨.ok, BitVec.ofNat 32 s.count⟩]

/-! ## The step, its inputs and reset -/

/-- 30_encoding.md §1 (R50, R51): the next command word on the port is decoded and its command runs.
(The list of the host's inputs is the model's choice, entry 1.) -/
def Obligations.StepRunsTheDecodedCommand : Prop :=
  ∀ (s : State) (w : Word) (rest : List HostInput) (i : Instr),
    s.inputs = .command w :: rest → decode w = .ok i → step s = exec i { s with inputs := rest }

/-- 30_encoding.md §1: a legal command offered on the port is the next thing FX does, and leaves the rest of the
host's inputs in place. (The list of the host's inputs is the model's choice, entry 1.) -/
def Obligations.OfferedCommandRunsNext : Prop :=
  ∀ (s : State) (i : Instr), i.wellFormed = true → step (s.withFetchWord 32 (encode i).toNat) = exec i s

/-- 30_encoding.md §3 (R56), 60_exceptions.md §1 (R105): an illegal word sets ERR.ILL, answers (ILL, 0) and changes
nothing else. That the answer is a next state, where R105 tells a model to treat the word as a refusal, is the model's
choice (entry 4). -/
def Obligations.IllegalWordSetsOnlyErrIll : Prop :=
  ∀ (s : State) (w : Word) (rest : List HostInput), s.inputs = .command w :: rest → IllegalWord w →
    step s = .next { s with inputs := rest, err := s.err ||| 2#32, out := s.out ++ [.response ⟨.ill, 0#32⟩] }

/-- 60_exceptions.md §5 (R118): with nothing from the host FX keeps all its state. (That such a step is
a next state equal to the state is the model's, entry 14.) -/
def Obligations.IdleKeepsAllState : Prop := ∀ s : State, s.inputs = [] → step s = .next s

/-- 70_reset_and_hazards.md §1 (R119, R120): a reset puts every piece of state at its reset value; the build
parameters and what has left FX stay. (`buf` with nothing listed is the model's choice, entry 5.) -/
def Obligations.ResetPutsEveryStateAtItsResetValue : Prop :=
  ∀ (s : State) (rest : List HostInput), s.inputs = .reset :: rest →
    step s = .next
      { params := s.params, buf := [], start := 0, count := 0, validCount := 0#32,
        lastOutcome := 0x0000000F#32, lastFrame := 0#32, ck := 0#32, err := 0#32, runCount := none,
        cancel := s.cancel, foReady := s.foReady, inputs := rest, out := s.out }

/-- 70_reset_and_hazards.md §1 (R120): the reset values, and what RDREG reads of them. -/
def Obligations.ResetStateHoldsTheResetValues : Prop :=
  State.reset.count = 0 ∧ State.reset.start = 0 ∧ window State.reset = [] ∧ State.reset.runCount = none ∧
  readRegister .capacity State.reset = 0x00002000#32 ∧ readRegister .available State.reset = 0#32 ∧
  readRegister .validCount State.reset = 0#32 ∧ readRegister .lastOutcome State.reset = 0x0000000F#32 ∧
  readRegister .lastFrame State.reset = 0#32 ∧ readRegister .ck State.reset = 0#32 ∧
  readRegister .err State.reset = 0#32 ∧ readRegister .maxpay State.reset = 0x00001000#32 ∧
  readRegister .itercap State.reset = 0x000003E8#32 ∧ readRegister .target State.reset = 0x005C0701#32

/-- 70_reset_and_hazards.md §1 (R119): a command in progress when `rst` rises gets no response, every piece of state
has its reset value, and the records it had sent stay: for STEP those of its iteration if it came so far, for RUN those
of the iterations it came to, for any other command none. (How much of the command is done is the model's input, and a
record is sent whole or not at all, entry 7; `buf` with nothing listed is the model's choice, entry 5.) -/
def Obligations.CommandCutShortByResetGetsNoResponse : Prop :=
  ∀ (s : State) (w : Word) (done : Nat) (rest : List HostInput), s.inputs = .interrupted w done :: rest →
    ∃ (t : State) (fs : List FrameOut), step s = .next t ∧
      t = { State.reset with
            params := s.params, cancel := t.cancel, foReady := t.foReady, inputs := rest,
            out := s.out ++ fs.map .frame } ∧
      (∀ u, decode w = .ok .step → 0 < done → u = (iterate { s with inputs := rest }).state →
        u.out = s.out ++ fs.map .frame ∧ t.cancel = s.cancel ∧ t.foReady = u.foReady) ∧
      (∀ u, decode w = .ok .run →
        u = (runTurns (min done s.params.iterCap) { s with inputs := rest, runCount := some 0 }).state →
        u.out = s.out ++ fs.map .frame ∧ t.cancel = u.cancel ∧ t.foReady = u.foReady) ∧
      (decode w ≠ .ok .step ∨ done = 0 → decode w ≠ .ok .run →
        fs = [] ∧ t.cancel = s.cancel ∧ t.foReady = s.foReady)

/-- The reset state meets the invariant (70_reset_and_hazards.md §1). -/
def Obligations.ResetStateMeetsTheInvariant : Prop := State.reset.Inv

/-- Every step keeps the invariant: the bounds of `start` and `count` (10_state.md §3), a canonical buffer of
physical indices, legal LAST_OUTCOME codes and reserved bits at 0 (§4), and no `k` between commands (§6). -/
def Obligations.EveryStepKeepsTheInvariant : Prop :=
  ∀ s t : State, s.Inv → step s = .next t → t.Inv

/-- 10_state.md §6 (R32), §3 (R17, R19): `start` and the bytes of `buf` outside the window change the result of no
sequence of inputs. -/
def Obligations.HiddenStateChangesNoResult : Prop :=
  ∀ (n : Nat) (s t : State), s.Inv → t.Inv → SameView s t → SameOutcome (runs n s) (runs n t)

/-- 30_encoding.md §4 (R59), 20_memory.md §3 (R43): every command word, legal or not, gets exactly one response, and
the FrameOut records of the command stand before it. -/
def Obligations.EveryCommandGetsOneResponseAfterItsRecords : Prop :=
  ∀ (s t : State) (w : Word) (rest : List HostInput), s.inputs = .command w :: rest → step s = .next t →
    ∃ (fs : List FrameOut) (r : Response),
      t.out = s.out ++ fs.map .frame ++ [.response r] ∧ t.inputs = rest

/-- 60_exceptions.md §1 (R106): of the legal commands only PEEK fails, and only at or past `count`. -/
def Obligations.OnlyPeekPastTheWindowFails : Prop :=
  ∀ (i : Instr) (s t : State), i.wellFormed = true → exec i s = .next t →
    (∀ n : Half, i = .peek n → n.toNat < s.count) →
    t.err = s.err ∧
      ∃ (fs : List FrameOut) (d : Word), t.out = s.out ++ fs.map .frame ++ [.response ⟨.ok, d⟩]

/-- 60_exceptions.md §4 (R112), 70_reset_and_hazards.md §4 (R128): with a downstream that takes every record, every
command completes. (That a PEEK at or past `count` completes with its error response, against R104's "fault", is the
model's choice, entry 4; so is that the ill-formed RDREG of 10 to 15 does, entry 10.) -/
def Obligations.EveryCommandCompletesWhenRecordsAreTaken : Prop :=
  ∀ (i : Instr) (s : State), s.DownstreamTakes → ∃ t, exec i s = .next t

/-- 70_reset_and_hazards.md §3 (R127): the one stop of the model is a STEP or RUN whose record is not taken; nothing
is refused. (The fault stands for R127's command that never responds, entry 3. That a PEEK at or past `count` is no
fault, against R104, is the model's choice, entry 4; that the ill-formed RDREG of 10 to 15 is not refused, against
R105, is too, entries 4 and 10.) -/
def Obligations.OnlyAnUntakenRecordStopsTheMachine : Prop :=
  ∀ (i : Instr) (s : State), (∀ r, exec i s ≠ .refused r) ∧
    ∀ f, exec i s = .fault f →
      f = .downstreamStalled ∧ (i = .step ∨ i = .run) ∧ ¬ s.DownstreamTakes

/-- 10_state.md §1 (R14), §5 (R30): which commands write which state, ERR among it: of the legal commands only PEEK
writes it, and only the OOR bit. (That a PEEK at or past `count` gives a next state is the model's choice, entry 4.) -/
def Obligations.EachStateIsWrittenOnlyByItsCommands : Prop :=
  ∀ (i : Instr) (s t : State), exec i s = .next t →
    t.params = s.params ∧ t.inputs = s.inputs ∧
    (i ≠ .step → i ≠ .run →
      t.validCount = s.validCount ∧ t.lastOutcome = s.lastOutcome ∧ t.lastFrame = s.lastFrame ∧
      t.foReady = s.foReady) ∧
    (i ≠ .step → i ≠ .run → i ≠ .ckrst → (∀ x, i ≠ .ckfeed x) → t.ck = s.ck) ∧
    (i ≠ .run → t.cancel = s.cancel ∧ t.runCount = s.runCount) ∧
    (i.wellFormed = true → (∀ n, i ≠ .peek n) → t.err = s.err) ∧
    (∀ n, i = .peek n → t.err = if n.toNat < s.count then s.err else s.err ||| 1#32) ∧
    ((∀ b, i ≠ .append b) → ∀ p, Memory.read t.buf p = Memory.read s.buf p) ∧
    ((∀ b, i ≠ .append b) → (∀ n, i ≠ .consume n) → i ≠ .clear → i ≠ .step → i ≠ .run →
      t.start = s.start ∧ t.count = s.count)

/-! ## Buffer commands -/

/-- 40_ringbuffer.md §2 (R67): NOP leaves the state unchanged and answers (OK, 0). -/
def Obligations.NopOnlyAnswers : Prop :=
  ∀ s : State, exec .nop s = .next { s with out := s.out ++ [.response ⟨.ok, 0#32⟩] }

/-- 40_ringbuffer.md §1 (R62), §2 (R68): APPEND puts the byte at the end of the window, evicting the oldest byte of a
full buffer; it writes the one byte at `(start + count) mod C` and touches no other state. -/
def Obligations.AppendPutsTheByteAtTheEnd : Prop :=
  ∀ (s : State) (b : Byte), s.Inv → ∃ t, exec (.append b) s = .next t ∧
    window t = (if s.count = s.params.capacity then (window s).drop 1 else window s) ++ [b] ∧
    t.count = min (s.count + 1) s.params.capacity ∧
    t.start = (if s.count = s.params.capacity then (s.start + 1) % s.params.capacity else s.start) ∧
    appendAddress s = (s.start + s.count) % s.params.capacity ∧
    Memory.read t.buf (appendAddress s) = b ∧
    (∀ p, p ≠ appendAddress s → Memory.read t.buf p = Memory.read s.buf p) ∧
    SameOutsideBuffer s t ∧ t.out = s.out ++ [.response ⟨.ok, 0#32⟩]

/-- 40_ringbuffer.md R69: a bulk append leaves the last `min(C, count + n)` bytes of the old window followed by the
new bytes; with `n ≥ C` only the last C new bytes. -/
def Obligations.BulkAppendKeepsTheLastBytes : Prop :=
  ∀ (s : State) (bytes : List Byte) (rest : List HostInput), s.Inv →
    s.inputs = issue (Assembler.Line.appends bytes).expand ++ rest →
    ∃ t, runs bytes.length s = .next t ∧ t.inputs = rest ∧
      window t = (window s ++ bytes).drop
        (s.count + bytes.length - min s.params.capacity (s.count + bytes.length)) ∧
      (s.params.capacity ≤ bytes.length → window t = bytes.drop (bytes.length - s.params.capacity))

/-- 40_ringbuffer.md §2 (R70): PEEK inside the window answers the byte and changes nothing. -/
def Obligations.PeekAnswersTheWindowByte : Prop :=
  ∀ (s : State) (n : Half) (b : Byte), (window s)[n.toNat]? = some b →
    exec (.peek n) s = .next { s with out := s.out ++ [.response ⟨.ok, BitVec.ofNat 32 b.toNat⟩] }

/-- 60_exceptions.md §1 (R104): PEEK at or past `count` sets ERR.OOR, answers (OOR, 0) and changes nothing else; the
machine goes on, which is the model's choice against R104's "fault" (entry 4). -/
def Obligations.PeekPastTheWindowSetsOnlyErrOor : Prop :=
  ∀ (s : State) (n : Half), s.count ≤ n.toNat →
    exec (.peek n) s = .next { s with err := s.err ||| 1#32, out := s.out ++ [.response ⟨.oor, 0#32⟩] }

/-- 40_ringbuffer.md §1 (R63), §2 (R71): CONSUME drops `min(n, count)` bytes and answers that number; no byte of the
buffer and no other state changes. -/
def Obligations.ConsumeDropsFromTheFront : Prop :=
  ∀ (s : State) (n : Half), ∃ t, exec (.consume n) s = .next t ∧
    window t = (window s).drop n.toNat ∧
    t.start = (s.start + min n.toNat s.count) % s.params.capacity ∧ t.count = s.count - min n.toNat s.count ∧
    (∀ p, Memory.read t.buf p = Memory.read s.buf p) ∧
    SameOutsideBuffer s t ∧ t.out = s.out ++ [.response ⟨.ok, BitVec.ofNat 32 (min n.toNat s.count)⟩]

/-- 40_ringbuffer.md R72, R65: FINDSYNC answers the lowest offset of the sync pattern in the window, or 0xFFFFFFFF,
and changes nothing. -/
def Obligations.FindsyncAnswersTheLowestOffset : Prop :=
  ∀ s : State,
    (∀ off, SyncIn (window s) off → (∀ j < off, ¬ SyncIn (window s) j) →
      off + 2 ≤ s.count ∧
      exec .findsync s = .next { s with out := s.out ++ [.response ⟨.ok, BitVec.ofNat 32 off⟩] }) ∧
    (NoSync (window s) →
      exec .findsync s = .next { s with out := s.out ++ [.response ⟨.ok, 0xFFFFFFFF#32⟩] })

/-- 40_ringbuffer.md R64, §2 (R73): CLEAR empties the window with `start` and `count` at 0 and changes nothing else. -/
def Obligations.ClearEmptiesTheWindow : Prop :=
  ∀ s : State, ∃ t, exec .clear s = .next t ∧ window t = [] ∧
    t = { s with start := 0, count := 0, out := s.out ++ [.response ⟨.ok, 0#32⟩] }

/-- 40_ringbuffer.md §1 (R66): the window gets bytes from APPEND only, at its end, and loses them at its front only. -/
def Obligations.WindowGrowsByAppendAndShrinksAtTheFront : Prop :=
  ∀ (i : Instr) (s t : State), s.Inv → exec i s = .next t →
    t.count ≤ t.params.capacity ∧
    (∀ b, i = .append b → ∃ n, window t = (window s).drop n ++ [b]) ∧
    ((∀ b, i ≠ .append b) → ∃ n, window t = (window s).drop n)

/-! ## STEP -/

/-- 41_extractor.md R77, R80: with fewer than 2 bytes, or a sync pattern and fewer than 6 bytes, the iteration changes
nothing; STEP records and answers NEED_DATA or NEED_HEADER. -/
def Obligations.StepWaitsForDataOrHeader : Prop :=
  ∀ s : State,
    (s.count < 2 → exec .step s = .next (s.answered 0)) ∧
    (SyncIn (window s) 0 → s.count < 6 → exec .step s = .next (s.answered 3))

/-- 41_extractor.md §1, step 7 (R83): a legal header whose frame is not complete changes nothing; STEP answers
NEED_FRAME. -/
def Obligations.StepWaitsForTheWholeFrame : Prop :=
  ∀ (s : State) (plen : Nat), SyncIn (window s) 0 → PayloadLen (window s) plen →
    plen ≤ s.params.maxPayload → s.count < 8 + plen → exec .step s = .next (s.answered 5)

/-- 41_extractor.md R78: without a sync pattern only the newest byte stays, whatever its value. -/
def Obligations.StepWithoutSyncKeepsOnlyTheNewestByte : Prop :=
  ∀ s : State, 2 ≤ s.count → NoSync (window s) →
    exec .step s = .next ((s.dropped (s.count - 1)).answered 1) ∧
    window (s.dropped (s.count - 1)) = (window s).drop (s.count - 1) ∧ (s.dropped (s.count - 1)).count = 1

/-- 41_extractor.md R79: junk before the first sync pattern is removed, and nothing more; after it the pattern is at
logical 0. -/
def Obligations.StepDropsJunkBeforeTheSync : Prop :=
  ∀ (s : State) (off : Nat), 0 < off → SyncIn (window s) off → (∀ j < off, ¬ SyncIn (window s) j) →
    exec .step s = .next ((s.dropped off).answered 2) ∧
    window (s.dropped off) = (window s).drop off ∧ SyncIn (window (s.dropped off)) 0 ∧ 2 ≤ (s.dropped off).count

/-- 41_extractor.md R82: a payload length over MAX_PAYLOAD removes exactly the two sync bytes; MAX_PAYLOAD itself is
legal. -/
def Obligations.StepDropsTheSyncOfABadLength : Prop :=
  ∀ (s : State) (plen : Nat), SyncIn (window s) 0 → PayloadLen (window s) plen →
    (s.params.maxPayload < plen →
      exec .step s = .next ((s.dropped 2).answered 4) ∧ window (s.dropped 2) = (window s).drop 2) ∧
    (plen ≤ s.params.maxPayload → ∀ t, exec .step s = .next t → t.lastOutcome ≠ 4#32)

/-- 41_extractor.md R87: a mismatch in either checksum byte removes exactly the two sync bytes; CK takes the sums. -/
def Obligations.StepDropsTheSyncOfABadChecksum : Prop :=
  ∀ (s : State) (cls id : Byte) (plen : Nat), Candidate s cls id plen → ¬ TrailerAgrees (window s) plen →
    exec .step s = .next (({ s.dropped 2 with ck := sumsWord (sumsOf (window s) plen) } : State).answered 6) ∧
    window (s.dropped 2) = (window s).drop 2

/-- 41_extractor.md R86: step 8 writes CK with the sums over class, id, length and payload, match or not. -/
def Obligations.StepWritesTheSumsOfACandidateToCk : Prop :=
  ∀ (s t : State) (cls id : Byte) (plen : Nat), Candidate s cls id plen → exec .step s = .next t →
    t.ck = sumsWord (fletcher8 (((window s).drop 2).take (4 + plen)))

/-- 41_extractor.md §1, step 10 (R88): a valid frame that is not the target is counted, recorded in LAST_FRAME and
consumed whole, and not emitted. -/
def Obligations.StepCountsAndConsumesAnotherFrame : Prop :=
  ∀ (s : State) (cls id : Byte) (plen : Nat), Candidate s cls id plen → TrailerAgrees (window s) plen →
    ¬ (cls = 0x01#8 ∧ id = 0x07#8 ∧ plen = 92) →
    exec .step s = .next
      (({ s.dropped (8 + plen) with
          ck := sumsWord (sumsOf (window s) plen), validCount := s.validCount + 1#32,
          lastFrame := BitVec.ofNat 32 (cls.toNat + 2 ^ 8 * id.toNat + 2 ^ 16 * plen) } : State).answered 7) ∧
    window (s.dropped (8 + plen)) = (window s).drop (8 + plen)

/-- 41_extractor.md §1, step 10 (R88), 60_exceptions.md §3 (R110): a valid target frame is also emitted, its payload
bytes in stream order, before it is consumed. -/
def Obligations.StepEmitsATargetFrame : Prop :=
  ∀ (s : State) (p : Pin), Candidate s 0x01#8 0x07#8 92 → TrailerAgrees (window s) 92 →
    Pin.sample s.foReady = (true, p) →
    exec .step s = .next
      (({ s.dropped 100 with
          ck := sumsWord (sumsOf (window s) 92), validCount := s.validCount + 1#32,
          lastFrame := 0x005C0701#32, foReady := p,
          out := s.out ++ [.frame ⟨0x01#8, 0x07#8, 92#16, ((window s).drop 6).take 92⟩] } : State).answered 7) ∧
    window (s.dropped 100) = (window s).drop 100

/-- 70_reset_and_hazards.md §3 (R127): a STEP whose record the downstream never takes never responds: the
model's fault stands for that (entry 3). -/
def Obligations.StepHangsOnAnUntakenRecord : Prop :=
  ∀ (s : State) (p : Pin), Candidate s 0x01#8 0x07#8 92 → TrailerAgrees (window s) 92 →
    Pin.sample s.foReady = (false, p) → exec .step s = .fault .downstreamStalled

/-- 41_extractor.md §1 (R81 to R88), 20_memory.md §2 (R37, R38): a frame built with its correct checksum is accepted,
counted and consumed exactly, for every class, id and payload of legal length. -/
def Obligations.BuiltFrameIsAccepted : Prop :=
  ∀ (s : State) (cls id : Byte) (payload rest : List Byte), s.Inv → s.DownstreamTakes →
    payload.length ≤ s.params.maxPayload → window s = validFrame cls id payload ++ rest →
    ∃ t, exec .step s = .next t ∧ t.lastOutcome = 7#32 ∧ window t = rest ∧ t.validCount = s.validCount + 1#32 ∧
      t.frames = s.frames ++
        (if cls = 0x01#8 ∧ id = 0x07#8 ∧ payload.length = 92 then [⟨cls, id, 92#16, payload⟩] else [])

/-- 41_extractor.md R85: the closed form of the two sums. -/
def Obligations.FletcherSumsHaveTheClosedForm : Prop :=
  ∀ l : List Byte,
    (fletcher8 l).1.toNat = (l.map BitVec.toNat).sum % 256 ∧
    (fletcher8 l).2.toNat =
      ((List.range l.length).map fun j => (l.length - j) * ((l[j]?).getD 0#8).toNat).sum % 256

/-- 41_extractor.md R90: every continue removes at least one byte; a stop other than NO_SYNC changes nothing. -/
def Obligations.ContinuesRemoveBytesAndStopsWait : Prop :=
  ∀ (s t : State) (o : IterOutcome), iterate s = .ended o t →
    (o = .junk → ∃ off, 1 ≤ off ∧ findSync s = some off ∧ t.count + off = s.count) ∧
    (o = .badLength ∨ o = .badChecksum → t.count + 2 = s.count) ∧
    (o = .frameOk → ∃ plen, PayloadLen (window s) plen ∧ t.count + (8 + plen) = s.count) ∧
    (o.isStop = false → t.count < s.count) ∧
    (o.isStop = true → o ≠ .noSync → t = s)

/-- 41_extractor.md R91: a buffer that could hold the largest frame never waits for a header or a frame, so a full
buffer always removes bytes. -/
def Obligations.FullBufferNeverWaits : Prop :=
  ∀ (s t : State) (o : IterOutcome), s.Inv → iterate s = .ended o t →
    (8 + s.params.maxPayload ≤ s.count → o ≠ .needHeader ∧ o ≠ .needFrame) ∧
    (s.count = s.params.capacity → t.count < s.count)

/-- 41_extractor.md R92: one flipped bit in the class, the id, the payload or a checksum byte of a valid frame makes
step 9 fail. -/
def Obligations.OneFlippedBitFailsTheChecksum : Prop :=
  ∀ (s : State) (cls id : Byte) (payload rest : List Byte) (j k : Nat), s.Inv →
    payload.length ≤ s.params.maxPayload → j < 8 + payload.length → (j = 2 ∨ j = 3 ∨ 6 ≤ j) → k < 8 →
    window s = (validFrame cls id payload).modify j (fun b => b ^^^ (1#8 <<< k)) ++ rest →
    ∃ t, exec .step s = .next t ∧ t.lastOutcome = 6#32 ∧ window t = (window s).drop 2 ∧
      t.validCount = s.validCount ∧ t.frames = s.frames

/-- 41_extractor.md R93: after BAD_LENGTH or BAD_CHECKSUM every byte after the first two is still there, and a sync
pattern at logical 2 or later can be found. -/
def Obligations.FailedCandidateKeepsLaterFrames : Prop :=
  ∀ s t : State, exec .step s = .next t → t.lastOutcome = 4#32 ∨ t.lastOutcome = 6#32 →
    window t = (window s).drop 2 ∧
    ∀ off, 2 ≤ off → SyncIn (window s) off →
      SyncIn (window t) (off - 2) ∧ ∃ j, findSync t = some j ∧ j ≤ off - 2

/-- 42_checksum_control.md §1 (R102): a STEP that does not reach step 8 leaves CK unchanged. -/
def Obligations.StepBeforeTheChecksumLeavesCk : Prop :=
  ∀ s t : State, exec .step s = .next t → t.lastOutcome ≠ 6#32 → t.lastOutcome ≠ 7#32 → t.ck = s.ck

/-! ## RUN -/

/-- 41_extractor.md §2 (R95), 10_state.md §4 (R23): RUN answers `k` and a stop reason, never a continue, writes
LAST_OUTCOME with it, and leaves the build parameters, ERR, the inputs and every byte of `buf` alone. -/
def Obligations.RunAnswersItsReasonAndCount : Prop :=
  ∀ s : State, s.DownstreamTakes → ∃ (t : State) (k reason : Nat) (fs : List FrameOut),
    exec .run s = .next t ∧ reason ∈ [0, 1, 3, 5, 8, 9] ∧ t.lastOutcome = BitVec.ofNat 32 reason ∧
    t.out = s.out ++ fs.map .frame ++ [.response ⟨.ok, BitVec.ofNat 32 (2 ^ 16 * k + reason)⟩] ∧
    k ≤ s.params.iterCap ∧ t.runCount = none ∧ t.params = s.params ∧ t.err = s.err ∧ t.inputs = s.inputs ∧
    (∀ p, Memory.read t.buf p = Memory.read s.buf p) ∧ ∃ n, window t = (window s).drop n

/-- 41_extractor.md §2 (R95): with `cancel = 1` at the start RUN runs no iteration and changes nothing else. -/
def Obligations.RunCancelledAtTheStartRunsNothing : Prop :=
  ∀ (s : State) (p : Pin), Pin.sample s.cancel = (true, p) →
    exec .run s = .next
      { s with cancel := p, lastOutcome := 9#32, runCount := none, out := s.out ++ [.response ⟨.ok, 9#32⟩] }

/-- 41_extractor.md §2 (R96): a RUN ends within `min(ITER_CAP, count + 1)` iterations, and CAP_EXCEEDED needs
`count ≥ ITER_CAP`; it reports `k = ITER_CAP` and leaves an empty buffer. -/
def Obligations.RunEndsWithinItsBound : Prop :=
  ∀ (s t : State) (fs : List FrameOut) (k reason : Nat), s.Inv → exec .run s = .next t →
    k ≤ 65535 → reason ≤ 9 →
    t.out = s.out ++ fs.map .frame ++ [.response ⟨.ok, BitVec.ofNat 32 (2 ^ 16 * k + reason)⟩] →
    k ≤ min s.params.iterCap (s.count + 1) ∧
    (reason = 8 → s.params.iterCap ≤ s.count ∧ k = s.params.iterCap ∧ window t = [])

/-- 41_extractor.md §2 (R94, R95), 60_exceptions.md §1 (R106): every RUN that responds does what STEPs do. Its `k`
iterations, run as `k` STEPs, leave `u` and emit `fs`, and `cancel` was 0 at each of their boundaries. The RUN leaves
`u` with its own response in one of three ways: after a stop, which is the last STEP's; CANCELLED, all the STEPs being
continues and `cancel` 1 at the next boundary, be it the cap's; CAP_EXCEEDED, all the STEPs being continues, `k`
being ITER_CAP and `cancel` 0 at the cap's boundary, with the buffer cleared. -/
def Obligations.RunIsRepeatedStep : Prop :=
  ∀ s t : State, s.runCount = none → exec .run s = .next t →
    ∃ (k : Nat) (codes : List Nat) (fs : List FrameOut) (u : State),
      k ≤ s.params.iterCap ∧ codes.length = k ∧ (∀ j < k, s.cancel.value j = false) ∧
      runs k { s with inputs := issue (List.replicate k .step) } = .next u ∧
      u.frames = s.frames ++ fs ∧ u.responses = s.responses ++ stepResponses codes ∧
      ((∃ (init : List Nat) (code : Nat), codes = init ++ [code] ∧ (∀ c ∈ init, IsContinueCode c) ∧
          code ∈ [0, 1, 3, 5] ∧ t = s.ranTo u fs k code k) ∨
        ((∀ c ∈ codes, IsContinueCode c) ∧ s.cancel.value k = true ∧ t = s.ranTo u fs k 9 (k + 1)) ∨
        ((∀ c ∈ codes, IsContinueCode c) ∧ k = s.params.iterCap ∧ s.cancel.value k = false ∧
          t = { s.ranTo u fs k 8 (k + 1) with start := 0, count := 0 }))

/-- 41_extractor.md R97: after a RUN that was not cancelled, a second RUN over the same window runs exactly one
iteration, changes nothing but LAST_OUTCOME, and ends with NEED_DATA, NEED_HEADER or NEED_FRAME. -/
def Obligations.SecondRunIsQuiescent : Prop :=
  ∀ s t : State, exec .run s = .next t → t.lastOutcome ≠ 9#32 →
    ((t.lastOutcome = 0#32 ∨ t.lastOutcome = 1#32 ∨ t.lastOutcome = 8#32) ∧ t.count ≤ 1 ∨
      t.lastOutcome = 3#32 ∧ SyncIn (window t) 0 ∧ t.count < 6 ∨
      t.lastOutcome = 5#32 ∧ SyncIn (window t) 0 ∧
        ∃ plen, PayloadLen (window t) plen ∧ plen ≤ t.params.maxPayload ∧ t.count < 8 + plen) ∧
    ∀ (u : State) (p : Pin), window u = window t → u.params = t.params → 1 ≤ u.params.iterCap →
      Pin.sample u.cancel = (false, p) →
      ∃ code ∈ [0, 3, 5], exec .run u = .next
        { u with
          cancel := p, lastOutcome := BitVec.ofNat 32 code, runCount := none,
          out := u.out ++ [.response ⟨.ok, BitVec.ofNat 32 (2 ^ 16 * 1 + code)⟩] }

/-- 70_reset_and_hazards.md §3 (R125): a RUN that was not cancelled leaves at most `7 + MAX_PAYLOAD` bytes. -/
def Obligations.RunLeavesLessThanAFrame : Prop :=
  ∀ s t : State, s.Inv → exec .run s = .next t → t.lastOutcome ≠ 9#32 → t.count ≤ 7 + t.params.maxPayload

/-- 41_extractor.md §2 (R98), for the document's build parameters: one target frame between bytes without a sync
pattern, appended in any chunks with a RUN after each, is counted once and emitted once. -/
def Obligations.OneTargetFrameInNoiseIsReportedOnce : Prop :=
  ∀ (s : State) (before after payload : List Byte) (chunks : List (List Byte)),
    s.Inv → s.params = Config.Params.document → s.count = 0 → s.NeverCancelled → s.DownstreamTakes →
    NoSync before → NoSync after → payload.length = 92 →
    chunks.flatten = before ++ validFrame 0x01#8 0x07#8 payload ++ after →
    s.inputs = chunkedHost chunks →
    (∀ (n : Nat) (u : State) (b : Byte) (rest : List HostInput), runs n s = .next u →
      u.inputs = .command (encode (.append b)) :: rest → u.count < u.params.capacity) →
    ∃ t, runs s.inputs.length s = .next t ∧ t.inputs = [] ∧ t.validCount = s.validCount + 1#32 ∧
      t.frames = s.frames ++ [⟨0x01#8, 0x07#8, 92#16, payload⟩]

/-! ## Checksum and register access -/

/-- 42_checksum_control.md §1 (R99): CKRST clears CK and changes nothing else. -/
def Obligations.CkrstClearsCk : Prop :=
  ∀ s : State, exec .ckrst s = .next { s with ck := 0#32, out := s.out ++ [.response ⟨.ok, 0#32⟩] }

/-- 42_checksum_control.md §1 (R100): CKFEED adds the byte to ckA and the new ckA to ckB, both modulo 256, answers the
new CK and changes nothing else. -/
def Obligations.CkfeedAccumulatesOneByte : Prop :=
  ∀ (s : State) (x : Byte) (a b : Nat), a = (s.ck.toNat % 256 + x.toNat) % 256 →
    b = (s.ck.toNat / 256 % 256 + a) % 256 →
    exec (.ckfeed x) s = .next
      { s with
        ck := BitVec.ofNat 32 (a + 256 * b), out := s.out ++ [.response ⟨.ok, BitVec.ofNat 32 (a + 256 * b)⟩] }

/-- 42_checksum_control.md R101: CKRST and CKFEED of a byte sequence leave CK with its Fletcher sums, so CKSUM over
class, id, length and payload gives the two bytes a valid frame ends with. -/
def Obligations.CksumLeavesTheFletcherSums : Prop :=
  ∀ (s : State) (bytes : List Byte) (rest : List HostInput),
    s.inputs = issue (Assembler.Line.cksum bytes).expand ++ rest →
    ∃ t, runs (bytes.length + 1) s = .next t ∧ t.inputs = rest ∧ t.ck = sumsWord (fletcher8 bytes) ∧
      ∀ (cls id : Byte) (payload : List Byte), bytes = checkedBytes cls id payload →
        validFrame cls id payload =
          0xB5#8 :: 0x62#8 :: bytes ++ [BitVec.ofNat 8 t.ck.toNat, BitVec.ofNat 8 (t.ck.toNat / 256)]

/-- 42_checksum_control.md R103: RDREG answers the register and changes nothing; the indices 10 to 15 and reserved
bits are illegal. -/
def Obligations.RdregAnswersTheRegister : Prop :=
  (∀ (s : State) (r : BitVec 4) (v : Word),
    (r = 0#4 ∧ v = BitVec.ofNat 32 s.params.capacity) ∨ (r = 1#4 ∧ v = BitVec.ofNat 32 s.count) ∨
    (r = 2#4 ∧ v = s.validCount) ∨ (r = 3#4 ∧ v = s.lastOutcome) ∨ (r = 4#4 ∧ v = s.lastFrame) ∨
    (r = 5#4 ∧ v = s.ck) ∨ (r = 6#4 ∧ v = s.err) ∨ (r = 7#4 ∧ v = BitVec.ofNat 32 s.params.maxPayload) ∨
    (r = 8#4 ∧ v = BitVec.ofNat 32 s.params.iterCap) ∨ (r = 9#4 ∧ v = 0x005C0701#32) →
    exec (.rdreg r) s = .next { s with out := s.out ++ [.response ⟨.ok, v⟩] }) ∧
  ∀ w : Word, w.toNat / 2 ^ 28 = 0xA → (w.toNat % 2 ^ 28 / 2 ^ 4 ≠ 0 ∨ 10 ≤ w.toNat % 2 ^ 4) →
    ∃ e, decode w = .error e

/-! ## The frame-output port -/

/-- 60_exceptions.md §3 (R110): a record is one transfer for each payload byte in stream order, `fo_first` on the
first and `fo_last` on the last. -/
def Obligations.RecordIsOneTransferPerPayloadByte : Prop :=
  ∀ f : FrameOut, f.transfers.map Transfer.data = f.payload ∧
    ∀ (i : Nat) (x : Transfer), f.transfers[i]? = some x →
      (x.first = true ↔ i = 0) ∧ (x.last = true ↔ i + 1 = f.payload.length)
end

