-- ==== Sys2Proof/Laws/Memory.lean ====
section
/-! SUPPORT. The laws of memory: a read after a write, the canonical form kept by every operation, and equal reads
making equal memories. -/

namespace Sys2Proof.Machine

@[simp] theorem Memory.read_nil (p : Nat) : Memory.read [] p = Config.unlistedByte := rfl

theorem Memory.read_cell (q : Nat) (w : Byte) (rest : Memory) (p : Nat) :
    Memory.read ((q, w) :: rest) p = if q = p then w else Memory.read rest p := rfl

theorem Memory.wf_cell (q : Nat) (w : Byte) (rest : Memory) :
    Memory.wf ((q, w) :: rest) = true ↔
      w ≠ Config.unlistedByte ∧ (∀ c ∈ rest, q < c.1) ∧ Memory.wf rest = true := by
  simp [Memory.wf, and_assoc]

/-- A byte whose address is below every listed address is not listed. -/
theorem Memory.read_unlisted {m : Memory} {p : Nat} (h : ∀ c ∈ m, p < c.1) :
    Memory.read m p = Config.unlistedByte := by
  induction m with
  | nil => rfl
  | cons c rest ih =>
    obtain ⟨q, w⟩ := c
    have hq : p < q := h (q, w) (by simp)
    rw [Memory.read_cell, if_neg (by omega)]
    exact ih fun c hc => h c (by simp [hc])

/-- Reading through `Memory.cons`, where the address was not listed after it. -/
theorem Memory.read_cons {m : Memory} {p : Nat} (v : Byte) (q : Nat) (h : ∀ c ∈ m, p < c.1) :
    Memory.read (Memory.cons p v m) q = if q = p then v else Memory.read m q := by
  unfold Memory.cons
  split
  · next hv =>
    split
    · next hq => subst hq; rw [hv]; exact Memory.read_unlisted h
    · rfl
  · rw [Memory.read_cell]
    simp only [eq_comm]

theorem Memory.mem_cons {p : Nat} {v : Byte} {m : Memory} {c : Host.Cell}
    (h : c ∈ Memory.cons p v m) : c = (p, v) ∨ c ∈ m := by
  unfold Memory.cons at h
  split at h
  · exact .inr h
  · simpa using h

theorem Memory.wf_cons {p : Nat} (v : Byte) {m : Memory} (h : ∀ c ∈ m, p < c.1)
    (hm : Memory.wf m = true) : Memory.wf (Memory.cons p v m) = true := by
  unfold Memory.cons
  split
  · exact hm
  · next hv => exact (Memory.wf_cell p v m).2 ⟨hv, h, hm⟩

/-- What a write lists: its own address, and addresses listed before. -/
theorem Memory.mem_write {m : Memory} {p : Nat} {v : Byte} {c : Host.Cell}
    (h : c ∈ Memory.write m p v) : c = (p, v) ∨ c ∈ m := by
  induction m with
  | nil => exact Memory.mem_cons h
  | cons d rest ih =>
    obtain ⟨q, w⟩ := d
    unfold Memory.write at h
    split at h
    · rcases List.mem_cons.1 h with h | h
      · exact .inr (by simp [h])
      · exact (ih h).imp id fun h => by simp [h]
    · split at h
      · exact (Memory.mem_cons h).imp id fun h => by simp [h]
      · exact Memory.mem_cons h

/-- A write keeps the canonical form. -/
theorem Memory.wf_write {m : Memory} (p : Nat) (v : Byte) (h : Memory.wf m = true) :
    Memory.wf (Memory.write m p v) = true := by
  induction m with
  | nil => exact Memory.wf_cons v (by simp) rfl
  | cons d rest ih =>
    obtain ⟨q, w⟩ := d
    obtain ⟨hw, hq, hr⟩ := (Memory.wf_cell q w rest).1 h
    unfold Memory.write
    split
    · next hlt =>
      refine (Memory.wf_cell _ _ _).2 ⟨hw, fun c hc => ?_, ih hr⟩
      rcases Memory.mem_write hc with rfl | hc
      · exact hlt
      · exact hq c hc
    · split
      · next heq => subst heq; exact Memory.wf_cons v hq hr
      · next hlt hne =>
        refine Memory.wf_cons v (fun c hc => ?_) h
        rcases List.mem_cons.1 hc with rfl | hc
        · simp only; omega
        · have := hq c hc; omega

/-- A read after a write: the byte written at its own address, the byte before at every other. -/
theorem Memory.read_write {m : Memory} (p : Nat) (v : Byte) (q : Nat) (h : Memory.wf m = true) :
    Memory.read (Memory.write m p v) q = if q = p then v else Memory.read m q := by
  induction m with
  | nil => exact Memory.read_cons v q (by simp)
  | cons d rest ih =>
    obtain ⟨a, w⟩ := d
    obtain ⟨-, ha, hr⟩ := (Memory.wf_cell a w rest).1 h
    unfold Memory.write
    split
    · next hlt =>
      rw [Memory.read_cell, Memory.read_cell, ih hr]
      split
      · next haq => rw [if_neg (by omega)]
      · rfl
    · split
      · next heq =>
        subst heq
        rw [Memory.read_cons v q ha, Memory.read_cell]
        split
        · rfl
        · next hne => rw [if_neg (Ne.symm hne)]
      · next hlt hne =>
        refine Memory.read_cons v q (fun c hc => ?_)
        rcases List.mem_cons.1 hc with rfl | hc
        · simp only; omega
        · have := ha c hc; omega

/-- A write to a physical index of the buffer lists physical indices only. -/
theorem Memory.below_write {m : Memory} {p c : Nat} (v : Byte) (hp : p < c)
    (h : Memory.below m c = true) : Memory.below (Memory.write m p v) c = true := by
  simp only [Memory.below, List.all_eq_true, decide_eq_true_eq] at h ⊢
  intro x hx
  rcases Memory.mem_write hx with rfl | hx
  · exact hp
  · exact h x hx

/-- Canonical memories that read alike are equal. -/
theorem Memory.ext_of_read {m n : Memory} (hm : Memory.wf m = true) (hn : Memory.wf n = true)
    (h : ∀ p, Memory.read m p = Memory.read n p) : m = n := by
  induction m generalizing n with
  | nil =>
    cases n with
    | nil => rfl
    | cons d rest =>
      obtain ⟨q, w⟩ := d
      have := h q
      rw [Memory.read_cell, if_pos rfl] at this
      exact absurd this.symm ((Memory.wf_cell q w rest).1 hn).1
  | cons d rest ih =>
    obtain ⟨q, w⟩ := d
    obtain ⟨hw, hq, hr⟩ := (Memory.wf_cell q w rest).1 hm
    cases n with
    | nil =>
      have := h q
      rw [Memory.read_cell, if_pos rfl] at this
      exact absurd this hw
    | cons e tail =>
      obtain ⟨a, v⟩ := e
      obtain ⟨hv, ha, ht⟩ := (Memory.wf_cell a v tail).1 hn
      have hqa : q = a := by
        rcases Nat.lt_trichotomy q a with hlt | heq | hgt
        · have := h q
          rw [Memory.read_cell, if_pos rfl, Memory.read_cell, if_neg (by omega),
            Memory.read_unlisted fun c hc => Nat.lt_trans hlt (ha c hc)] at this
          exact absurd this hw
        · exact heq
        · have := h a
          rw [Memory.read_cell, if_neg (by omega), Memory.read_cell, if_pos rfl,
            Memory.read_unlisted fun c hc => Nat.lt_trans hgt (hq c hc)] at this
          exact absurd this.symm hv
      subst hqa
      have hwv : w = v := by simpa [Memory.read_cell] using h q
      subst hwv
      congr 1
      refine ih hr ht fun p => ?_
      by_cases hp : q = p
      · subst hp
        rw [Memory.read_unlisted hq, Memory.read_unlisted ha]
      · simpa [Memory.read_cell, hp] using h p

end Sys2Proof.Machine
end

