-- ==== Sys2Proof/Laws/State.lean ====
section
/-! SUPPORT. One lemma per field per update of State, and the buffer reads through every update that leaves the
buffer alone, so that no later proof unfolds a record update. -/

namespace Sys2Proof.Machine.State

variable (s : State)

/-! The fields after `setBuffer`. -/

@[simp] theorem setBuffer_params (m : Memory) (a n : Nat) : (s.setBuffer m a n).params = s.params := rfl
@[simp] theorem setBuffer_buf (m : Memory) (a n : Nat) : (s.setBuffer m a n).buf = m := rfl
@[simp] theorem setBuffer_start (m : Memory) (a n : Nat) : (s.setBuffer m a n).start = a := rfl
@[simp] theorem setBuffer_count (m : Memory) (a n : Nat) : (s.setBuffer m a n).count = n := rfl
@[simp] theorem setBuffer_validCount (m : Memory) (a n : Nat) : (s.setBuffer m a n).validCount = s.validCount := rfl
@[simp] theorem setBuffer_lastOutcome (m : Memory) (a n : Nat) : (s.setBuffer m a n).lastOutcome = s.lastOutcome := rfl
@[simp] theorem setBuffer_lastFrame (m : Memory) (a n : Nat) : (s.setBuffer m a n).lastFrame = s.lastFrame := rfl
@[simp] theorem setBuffer_ck (m : Memory) (a n : Nat) : (s.setBuffer m a n).ck = s.ck := rfl
@[simp] theorem setBuffer_err (m : Memory) (a n : Nat) : (s.setBuffer m a n).err = s.err := rfl
@[simp] theorem setBuffer_runCount (m : Memory) (a n : Nat) : (s.setBuffer m a n).runCount = s.runCount := rfl
@[simp] theorem setBuffer_cancel (m : Memory) (a n : Nat) : (s.setBuffer m a n).cancel = s.cancel := rfl
@[simp] theorem setBuffer_foReady (m : Memory) (a n : Nat) : (s.setBuffer m a n).foReady = s.foReady := rfl
@[simp] theorem setBuffer_inputs (m : Memory) (a n : Nat) : (s.setBuffer m a n).inputs = s.inputs := rfl
@[simp] theorem setBuffer_out (m : Memory) (a n : Nat) : (s.setBuffer m a n).out = s.out := rfl

/-! The fields after `setValidCount`. -/

@[simp] theorem setValidCount_params (w : Word) : (s.setValidCount w).params = s.params := rfl
@[simp] theorem setValidCount_buf (w : Word) : (s.setValidCount w).buf = s.buf := rfl
@[simp] theorem setValidCount_start (w : Word) : (s.setValidCount w).start = s.start := rfl
@[simp] theorem setValidCount_count (w : Word) : (s.setValidCount w).count = s.count := rfl
@[simp] theorem setValidCount_validCount (w : Word) : (s.setValidCount w).validCount = w := rfl
@[simp] theorem setValidCount_lastOutcome (w : Word) : (s.setValidCount w).lastOutcome = s.lastOutcome := rfl
@[simp] theorem setValidCount_lastFrame (w : Word) : (s.setValidCount w).lastFrame = s.lastFrame := rfl
@[simp] theorem setValidCount_ck (w : Word) : (s.setValidCount w).ck = s.ck := rfl
@[simp] theorem setValidCount_err (w : Word) : (s.setValidCount w).err = s.err := rfl
@[simp] theorem setValidCount_runCount (w : Word) : (s.setValidCount w).runCount = s.runCount := rfl
@[simp] theorem setValidCount_cancel (w : Word) : (s.setValidCount w).cancel = s.cancel := rfl
@[simp] theorem setValidCount_foReady (w : Word) : (s.setValidCount w).foReady = s.foReady := rfl
@[simp] theorem setValidCount_inputs (w : Word) : (s.setValidCount w).inputs = s.inputs := rfl
@[simp] theorem setValidCount_out (w : Word) : (s.setValidCount w).out = s.out := rfl

/-! The fields after `setLastOutcome`. -/

@[simp] theorem setLastOutcome_params (w : Word) : (s.setLastOutcome w).params = s.params := rfl
@[simp] theorem setLastOutcome_buf (w : Word) : (s.setLastOutcome w).buf = s.buf := rfl
@[simp] theorem setLastOutcome_start (w : Word) : (s.setLastOutcome w).start = s.start := rfl
@[simp] theorem setLastOutcome_count (w : Word) : (s.setLastOutcome w).count = s.count := rfl
@[simp] theorem setLastOutcome_validCount (w : Word) : (s.setLastOutcome w).validCount = s.validCount := rfl
@[simp] theorem setLastOutcome_lastOutcome (w : Word) : (s.setLastOutcome w).lastOutcome = w := rfl
@[simp] theorem setLastOutcome_lastFrame (w : Word) : (s.setLastOutcome w).lastFrame = s.lastFrame := rfl
@[simp] theorem setLastOutcome_ck (w : Word) : (s.setLastOutcome w).ck = s.ck := rfl
@[simp] theorem setLastOutcome_err (w : Word) : (s.setLastOutcome w).err = s.err := rfl
@[simp] theorem setLastOutcome_runCount (w : Word) : (s.setLastOutcome w).runCount = s.runCount := rfl
@[simp] theorem setLastOutcome_cancel (w : Word) : (s.setLastOutcome w).cancel = s.cancel := rfl
@[simp] theorem setLastOutcome_foReady (w : Word) : (s.setLastOutcome w).foReady = s.foReady := rfl
@[simp] theorem setLastOutcome_inputs (w : Word) : (s.setLastOutcome w).inputs = s.inputs := rfl
@[simp] theorem setLastOutcome_out (w : Word) : (s.setLastOutcome w).out = s.out := rfl

/-! The fields after `setLastFrame`. -/

@[simp] theorem setLastFrame_params (w : Word) : (s.setLastFrame w).params = s.params := rfl
@[simp] theorem setLastFrame_buf (w : Word) : (s.setLastFrame w).buf = s.buf := rfl
@[simp] theorem setLastFrame_start (w : Word) : (s.setLastFrame w).start = s.start := rfl
@[simp] theorem setLastFrame_count (w : Word) : (s.setLastFrame w).count = s.count := rfl
@[simp] theorem setLastFrame_validCount (w : Word) : (s.setLastFrame w).validCount = s.validCount := rfl
@[simp] theorem setLastFrame_lastOutcome (w : Word) : (s.setLastFrame w).lastOutcome = s.lastOutcome := rfl
@[simp] theorem setLastFrame_lastFrame (w : Word) : (s.setLastFrame w).lastFrame = w := rfl
@[simp] theorem setLastFrame_ck (w : Word) : (s.setLastFrame w).ck = s.ck := rfl
@[simp] theorem setLastFrame_err (w : Word) : (s.setLastFrame w).err = s.err := rfl
@[simp] theorem setLastFrame_runCount (w : Word) : (s.setLastFrame w).runCount = s.runCount := rfl
@[simp] theorem setLastFrame_cancel (w : Word) : (s.setLastFrame w).cancel = s.cancel := rfl
@[simp] theorem setLastFrame_foReady (w : Word) : (s.setLastFrame w).foReady = s.foReady := rfl
@[simp] theorem setLastFrame_inputs (w : Word) : (s.setLastFrame w).inputs = s.inputs := rfl
@[simp] theorem setLastFrame_out (w : Word) : (s.setLastFrame w).out = s.out := rfl

/-! The fields after `setCk`. -/

@[simp] theorem setCk_params (w : Word) : (s.setCk w).params = s.params := rfl
@[simp] theorem setCk_buf (w : Word) : (s.setCk w).buf = s.buf := rfl
@[simp] theorem setCk_start (w : Word) : (s.setCk w).start = s.start := rfl
@[simp] theorem setCk_count (w : Word) : (s.setCk w).count = s.count := rfl
@[simp] theorem setCk_validCount (w : Word) : (s.setCk w).validCount = s.validCount := rfl
@[simp] theorem setCk_lastOutcome (w : Word) : (s.setCk w).lastOutcome = s.lastOutcome := rfl
@[simp] theorem setCk_lastFrame (w : Word) : (s.setCk w).lastFrame = s.lastFrame := rfl
@[simp] theorem setCk_ck (w : Word) : (s.setCk w).ck = w := rfl
@[simp] theorem setCk_err (w : Word) : (s.setCk w).err = s.err := rfl
@[simp] theorem setCk_runCount (w : Word) : (s.setCk w).runCount = s.runCount := rfl
@[simp] theorem setCk_cancel (w : Word) : (s.setCk w).cancel = s.cancel := rfl
@[simp] theorem setCk_foReady (w : Word) : (s.setCk w).foReady = s.foReady := rfl
@[simp] theorem setCk_inputs (w : Word) : (s.setCk w).inputs = s.inputs := rfl
@[simp] theorem setCk_out (w : Word) : (s.setCk w).out = s.out := rfl

/-! The fields after `setErr`. -/

@[simp] theorem setErr_params (w : Word) : (s.setErr w).params = s.params := rfl
@[simp] theorem setErr_buf (w : Word) : (s.setErr w).buf = s.buf := rfl
@[simp] theorem setErr_start (w : Word) : (s.setErr w).start = s.start := rfl
@[simp] theorem setErr_count (w : Word) : (s.setErr w).count = s.count := rfl
@[simp] theorem setErr_validCount (w : Word) : (s.setErr w).validCount = s.validCount := rfl
@[simp] theorem setErr_lastOutcome (w : Word) : (s.setErr w).lastOutcome = s.lastOutcome := rfl
@[simp] theorem setErr_lastFrame (w : Word) : (s.setErr w).lastFrame = s.lastFrame := rfl
@[simp] theorem setErr_ck (w : Word) : (s.setErr w).ck = s.ck := rfl
@[simp] theorem setErr_err (w : Word) : (s.setErr w).err = w := rfl
@[simp] theorem setErr_runCount (w : Word) : (s.setErr w).runCount = s.runCount := rfl
@[simp] theorem setErr_cancel (w : Word) : (s.setErr w).cancel = s.cancel := rfl
@[simp] theorem setErr_foReady (w : Word) : (s.setErr w).foReady = s.foReady := rfl
@[simp] theorem setErr_inputs (w : Word) : (s.setErr w).inputs = s.inputs := rfl
@[simp] theorem setErr_out (w : Word) : (s.setErr w).out = s.out := rfl

/-! The fields after `setRunCount`. -/

@[simp] theorem setRunCount_params (k : Option Nat) : (s.setRunCount k).params = s.params := rfl
@[simp] theorem setRunCount_buf (k : Option Nat) : (s.setRunCount k).buf = s.buf := rfl
@[simp] theorem setRunCount_start (k : Option Nat) : (s.setRunCount k).start = s.start := rfl
@[simp] theorem setRunCount_count (k : Option Nat) : (s.setRunCount k).count = s.count := rfl
@[simp] theorem setRunCount_validCount (k : Option Nat) : (s.setRunCount k).validCount = s.validCount := rfl
@[simp] theorem setRunCount_lastOutcome (k : Option Nat) : (s.setRunCount k).lastOutcome = s.lastOutcome := rfl
@[simp] theorem setRunCount_lastFrame (k : Option Nat) : (s.setRunCount k).lastFrame = s.lastFrame := rfl
@[simp] theorem setRunCount_ck (k : Option Nat) : (s.setRunCount k).ck = s.ck := rfl
@[simp] theorem setRunCount_err (k : Option Nat) : (s.setRunCount k).err = s.err := rfl
@[simp] theorem setRunCount_runCount (k : Option Nat) : (s.setRunCount k).runCount = k := rfl
@[simp] theorem setRunCount_cancel (k : Option Nat) : (s.setRunCount k).cancel = s.cancel := rfl
@[simp] theorem setRunCount_foReady (k : Option Nat) : (s.setRunCount k).foReady = s.foReady := rfl
@[simp] theorem setRunCount_inputs (k : Option Nat) : (s.setRunCount k).inputs = s.inputs := rfl
@[simp] theorem setRunCount_out (k : Option Nat) : (s.setRunCount k).out = s.out := rfl

/-! The fields after `setCancel`. -/

@[simp] theorem setCancel_params (p : Pin) : (s.setCancel p).params = s.params := rfl
@[simp] theorem setCancel_buf (p : Pin) : (s.setCancel p).buf = s.buf := rfl
@[simp] theorem setCancel_start (p : Pin) : (s.setCancel p).start = s.start := rfl
@[simp] theorem setCancel_count (p : Pin) : (s.setCancel p).count = s.count := rfl
@[simp] theorem setCancel_validCount (p : Pin) : (s.setCancel p).validCount = s.validCount := rfl
@[simp] theorem setCancel_lastOutcome (p : Pin) : (s.setCancel p).lastOutcome = s.lastOutcome := rfl
@[simp] theorem setCancel_lastFrame (p : Pin) : (s.setCancel p).lastFrame = s.lastFrame := rfl
@[simp] theorem setCancel_ck (p : Pin) : (s.setCancel p).ck = s.ck := rfl
@[simp] theorem setCancel_err (p : Pin) : (s.setCancel p).err = s.err := rfl
@[simp] theorem setCancel_runCount (p : Pin) : (s.setCancel p).runCount = s.runCount := rfl
@[simp] theorem setCancel_cancel (p : Pin) : (s.setCancel p).cancel = p := rfl
@[simp] theorem setCancel_foReady (p : Pin) : (s.setCancel p).foReady = s.foReady := rfl
@[simp] theorem setCancel_inputs (p : Pin) : (s.setCancel p).inputs = s.inputs := rfl
@[simp] theorem setCancel_out (p : Pin) : (s.setCancel p).out = s.out := rfl

/-! The fields after `setFoReady`. -/

@[simp] theorem setFoReady_params (p : Pin) : (s.setFoReady p).params = s.params := rfl
@[simp] theorem setFoReady_buf (p : Pin) : (s.setFoReady p).buf = s.buf := rfl
@[simp] theorem setFoReady_start (p : Pin) : (s.setFoReady p).start = s.start := rfl
@[simp] theorem setFoReady_count (p : Pin) : (s.setFoReady p).count = s.count := rfl
@[simp] theorem setFoReady_validCount (p : Pin) : (s.setFoReady p).validCount = s.validCount := rfl
@[simp] theorem setFoReady_lastOutcome (p : Pin) : (s.setFoReady p).lastOutcome = s.lastOutcome := rfl
@[simp] theorem setFoReady_lastFrame (p : Pin) : (s.setFoReady p).lastFrame = s.lastFrame := rfl
@[simp] theorem setFoReady_ck (p : Pin) : (s.setFoReady p).ck = s.ck := rfl
@[simp] theorem setFoReady_err (p : Pin) : (s.setFoReady p).err = s.err := rfl
@[simp] theorem setFoReady_runCount (p : Pin) : (s.setFoReady p).runCount = s.runCount := rfl
@[simp] theorem setFoReady_cancel (p : Pin) : (s.setFoReady p).cancel = s.cancel := rfl
@[simp] theorem setFoReady_foReady (p : Pin) : (s.setFoReady p).foReady = p := rfl
@[simp] theorem setFoReady_inputs (p : Pin) : (s.setFoReady p).inputs = s.inputs := rfl
@[simp] theorem setFoReady_out (p : Pin) : (s.setFoReady p).out = s.out := rfl

/-! The fields after `setInputs`. -/

@[simp] theorem setInputs_params (l : List HostInput) : (s.setInputs l).params = s.params := rfl
@[simp] theorem setInputs_buf (l : List HostInput) : (s.setInputs l).buf = s.buf := rfl
@[simp] theorem setInputs_start (l : List HostInput) : (s.setInputs l).start = s.start := rfl
@[simp] theorem setInputs_count (l : List HostInput) : (s.setInputs l).count = s.count := rfl
@[simp] theorem setInputs_validCount (l : List HostInput) : (s.setInputs l).validCount = s.validCount := rfl
@[simp] theorem setInputs_lastOutcome (l : List HostInput) : (s.setInputs l).lastOutcome = s.lastOutcome := rfl
@[simp] theorem setInputs_lastFrame (l : List HostInput) : (s.setInputs l).lastFrame = s.lastFrame := rfl
@[simp] theorem setInputs_ck (l : List HostInput) : (s.setInputs l).ck = s.ck := rfl
@[simp] theorem setInputs_err (l : List HostInput) : (s.setInputs l).err = s.err := rfl
@[simp] theorem setInputs_runCount (l : List HostInput) : (s.setInputs l).runCount = s.runCount := rfl
@[simp] theorem setInputs_cancel (l : List HostInput) : (s.setInputs l).cancel = s.cancel := rfl
@[simp] theorem setInputs_foReady (l : List HostInput) : (s.setInputs l).foReady = s.foReady := rfl
@[simp] theorem setInputs_inputs (l : List HostInput) : (s.setInputs l).inputs = l := rfl
@[simp] theorem setInputs_out (l : List HostInput) : (s.setInputs l).out = s.out := rfl

/-! The fields after `emit`. -/

@[simp] theorem emit_params (e : OutEvent) : (s.emit e).params = s.params := rfl
@[simp] theorem emit_buf (e : OutEvent) : (s.emit e).buf = s.buf := rfl
@[simp] theorem emit_start (e : OutEvent) : (s.emit e).start = s.start := rfl
@[simp] theorem emit_count (e : OutEvent) : (s.emit e).count = s.count := rfl
@[simp] theorem emit_validCount (e : OutEvent) : (s.emit e).validCount = s.validCount := rfl
@[simp] theorem emit_lastOutcome (e : OutEvent) : (s.emit e).lastOutcome = s.lastOutcome := rfl
@[simp] theorem emit_lastFrame (e : OutEvent) : (s.emit e).lastFrame = s.lastFrame := rfl
@[simp] theorem emit_ck (e : OutEvent) : (s.emit e).ck = s.ck := rfl
@[simp] theorem emit_err (e : OutEvent) : (s.emit e).err = s.err := rfl
@[simp] theorem emit_runCount (e : OutEvent) : (s.emit e).runCount = s.runCount := rfl
@[simp] theorem emit_cancel (e : OutEvent) : (s.emit e).cancel = s.cancel := rfl
@[simp] theorem emit_foReady (e : OutEvent) : (s.emit e).foReady = s.foReady := rfl
@[simp] theorem emit_inputs (e : OutEvent) : (s.emit e).inputs = s.inputs := rfl
@[simp] theorem emit_out (e : OutEvent) : (s.emit e).out = s.out ++ [e] := rfl

end Sys2Proof.Machine.State

namespace Sys2Proof.Machine

variable (s : State)

/-! The buffer reads after `setValidCount`. -/

@[simp] theorem physical_setValidCount (w : Word) (i : Nat) : physical (s.setValidCount w) i = physical s i := rfl
@[simp] theorem peekByte_setValidCount (w : Word) (i : Nat) : peekByte (s.setValidCount w) i = peekByte s i := rfl
@[simp] theorem peekRange_setValidCount (w : Word) (i n : Nat) : peekRange (s.setValidCount w) i n = peekRange s i n := rfl
@[simp] theorem window_setValidCount (w : Word) : window (s.setValidCount w) = window s := rfl
@[simp] theorem findSync_setValidCount (w : Word) : findSync (s.setValidCount w) = findSync s := rfl
@[simp] theorem parseHeader_setValidCount (w : Word) : parseHeader (s.setValidCount w) = parseHeader s := rfl

/-! The buffer reads after `setLastOutcome`. -/

@[simp] theorem physical_setLastOutcome (w : Word) (i : Nat) : physical (s.setLastOutcome w) i = physical s i := rfl
@[simp] theorem peekByte_setLastOutcome (w : Word) (i : Nat) : peekByte (s.setLastOutcome w) i = peekByte s i := rfl
@[simp] theorem peekRange_setLastOutcome (w : Word) (i n : Nat) : peekRange (s.setLastOutcome w) i n = peekRange s i n := rfl
@[simp] theorem window_setLastOutcome (w : Word) : window (s.setLastOutcome w) = window s := rfl
@[simp] theorem findSync_setLastOutcome (w : Word) : findSync (s.setLastOutcome w) = findSync s := rfl
@[simp] theorem parseHeader_setLastOutcome (w : Word) : parseHeader (s.setLastOutcome w) = parseHeader s := rfl

/-! The buffer reads after `setLastFrame`. -/

@[simp] theorem physical_setLastFrame (w : Word) (i : Nat) : physical (s.setLastFrame w) i = physical s i := rfl
@[simp] theorem peekByte_setLastFrame (w : Word) (i : Nat) : peekByte (s.setLastFrame w) i = peekByte s i := rfl
@[simp] theorem peekRange_setLastFrame (w : Word) (i n : Nat) : peekRange (s.setLastFrame w) i n = peekRange s i n := rfl
@[simp] theorem window_setLastFrame (w : Word) : window (s.setLastFrame w) = window s := rfl
@[simp] theorem findSync_setLastFrame (w : Word) : findSync (s.setLastFrame w) = findSync s := rfl
@[simp] theorem parseHeader_setLastFrame (w : Word) : parseHeader (s.setLastFrame w) = parseHeader s := rfl

/-! The buffer reads after `setCk`. -/

@[simp] theorem physical_setCk (w : Word) (i : Nat) : physical (s.setCk w) i = physical s i := rfl
@[simp] theorem peekByte_setCk (w : Word) (i : Nat) : peekByte (s.setCk w) i = peekByte s i := rfl
@[simp] theorem peekRange_setCk (w : Word) (i n : Nat) : peekRange (s.setCk w) i n = peekRange s i n := rfl
@[simp] theorem window_setCk (w : Word) : window (s.setCk w) = window s := rfl
@[simp] theorem findSync_setCk (w : Word) : findSync (s.setCk w) = findSync s := rfl
@[simp] theorem parseHeader_setCk (w : Word) : parseHeader (s.setCk w) = parseHeader s := rfl

/-! The buffer reads after `setErr`. -/

@[simp] theorem physical_setErr (w : Word) (i : Nat) : physical (s.setErr w) i = physical s i := rfl
@[simp] theorem peekByte_setErr (w : Word) (i : Nat) : peekByte (s.setErr w) i = peekByte s i := rfl
@[simp] theorem peekRange_setErr (w : Word) (i n : Nat) : peekRange (s.setErr w) i n = peekRange s i n := rfl
@[simp] theorem window_setErr (w : Word) : window (s.setErr w) = window s := rfl
@[simp] theorem findSync_setErr (w : Word) : findSync (s.setErr w) = findSync s := rfl
@[simp] theorem parseHeader_setErr (w : Word) : parseHeader (s.setErr w) = parseHeader s := rfl

/-! The buffer reads after `setRunCount`. -/

@[simp] theorem physical_setRunCount (k : Option Nat) (i : Nat) : physical (s.setRunCount k) i = physical s i := rfl
@[simp] theorem peekByte_setRunCount (k : Option Nat) (i : Nat) : peekByte (s.setRunCount k) i = peekByte s i := rfl
@[simp] theorem peekRange_setRunCount (k : Option Nat) (i n : Nat) : peekRange (s.setRunCount k) i n = peekRange s i n := rfl
@[simp] theorem window_setRunCount (k : Option Nat) : window (s.setRunCount k) = window s := rfl
@[simp] theorem findSync_setRunCount (k : Option Nat) : findSync (s.setRunCount k) = findSync s := rfl
@[simp] theorem parseHeader_setRunCount (k : Option Nat) : parseHeader (s.setRunCount k) = parseHeader s := rfl

/-! The buffer reads after `setCancel`. -/

@[simp] theorem physical_setCancel (p : Pin) (i : Nat) : physical (s.setCancel p) i = physical s i := rfl
@[simp] theorem peekByte_setCancel (p : Pin) (i : Nat) : peekByte (s.setCancel p) i = peekByte s i := rfl
@[simp] theorem peekRange_setCancel (p : Pin) (i n : Nat) : peekRange (s.setCancel p) i n = peekRange s i n := rfl
@[simp] theorem window_setCancel (p : Pin) : window (s.setCancel p) = window s := rfl
@[simp] theorem findSync_setCancel (p : Pin) : findSync (s.setCancel p) = findSync s := rfl
@[simp] theorem parseHeader_setCancel (p : Pin) : parseHeader (s.setCancel p) = parseHeader s := rfl

/-! The buffer reads after `setFoReady`. -/

@[simp] theorem physical_setFoReady (p : Pin) (i : Nat) : physical (s.setFoReady p) i = physical s i := rfl
@[simp] theorem peekByte_setFoReady (p : Pin) (i : Nat) : peekByte (s.setFoReady p) i = peekByte s i := rfl
@[simp] theorem peekRange_setFoReady (p : Pin) (i n : Nat) : peekRange (s.setFoReady p) i n = peekRange s i n := rfl
@[simp] theorem window_setFoReady (p : Pin) : window (s.setFoReady p) = window s := rfl
@[simp] theorem findSync_setFoReady (p : Pin) : findSync (s.setFoReady p) = findSync s := rfl
@[simp] theorem parseHeader_setFoReady (p : Pin) : parseHeader (s.setFoReady p) = parseHeader s := rfl

/-! The buffer reads after `setInputs`. -/

@[simp] theorem physical_setInputs (l : List HostInput) (i : Nat) : physical (s.setInputs l) i = physical s i := rfl
@[simp] theorem peekByte_setInputs (l : List HostInput) (i : Nat) : peekByte (s.setInputs l) i = peekByte s i := rfl
@[simp] theorem peekRange_setInputs (l : List HostInput) (i n : Nat) : peekRange (s.setInputs l) i n = peekRange s i n := rfl
@[simp] theorem window_setInputs (l : List HostInput) : window (s.setInputs l) = window s := rfl
@[simp] theorem findSync_setInputs (l : List HostInput) : findSync (s.setInputs l) = findSync s := rfl
@[simp] theorem parseHeader_setInputs (l : List HostInput) : parseHeader (s.setInputs l) = parseHeader s := rfl

/-! The buffer reads after `emit`. -/

@[simp] theorem physical_emit (e : OutEvent) (i : Nat) : physical (s.emit e) i = physical s i := rfl
@[simp] theorem peekByte_emit (e : OutEvent) (i : Nat) : peekByte (s.emit e) i = peekByte s i := rfl
@[simp] theorem peekRange_emit (e : OutEvent) (i n : Nat) : peekRange (s.emit e) i n = peekRange s i n := rfl
@[simp] theorem window_emit (e : OutEvent) : window (s.emit e) = window s := rfl
@[simp] theorem findSync_emit (e : OutEvent) : findSync (s.emit e) = findSync s := rfl
@[simp] theorem parseHeader_emit (e : OutEvent) : parseHeader (s.emit e) = parseHeader s := rfl

/-! The fields after a reset (70_reset_and_hazards.md R119, R120). -/

@[simp] theorem afterReset_params : (afterReset s).params = s.params := rfl
@[simp] theorem afterReset_buf : (afterReset s).buf = [] := rfl
@[simp] theorem afterReset_start : (afterReset s).start = 0 := rfl
@[simp] theorem afterReset_count : (afterReset s).count = 0 := rfl
@[simp] theorem afterReset_validCount : (afterReset s).validCount = 0#32 := rfl
@[simp] theorem afterReset_lastOutcome : (afterReset s).lastOutcome = 0x0000000F#32 := rfl
@[simp] theorem afterReset_lastFrame : (afterReset s).lastFrame = 0#32 := rfl
@[simp] theorem afterReset_ck : (afterReset s).ck = 0#32 := rfl
@[simp] theorem afterReset_err : (afterReset s).err = 0#32 := rfl
@[simp] theorem afterReset_runCount : (afterReset s).runCount = none := rfl
@[simp] theorem afterReset_cancel : (afterReset s).cancel = s.cancel := rfl
@[simp] theorem afterReset_foReady : (afterReset s).foReady = s.foReady := rfl
@[simp] theorem afterReset_inputs : (afterReset s).inputs = s.inputs := rfl
@[simp] theorem afterReset_out : (afterReset s).out = s.out := rfl

end Sys2Proof.Machine
end

