-- ==== Sys2Proof/Laws/Buffer.lean ====
section
/-! SUPPORT. What the buffer primitives do, said once: their fields, their effect on the logical window
(40_ringbuffer.md R62 to R65), and that they keep the buffer's part of the invariant. -/

namespace Sys2Proof.Machine

variable (s : State)

/-! The fields a buffer primitive leaves alone. -/

@[simp] theorem consumeBytes_params (n : Nat) : (consumeBytes n s).params = s.params := rfl
@[simp] theorem consumeBytes_validCount (n : Nat) : (consumeBytes n s).validCount = s.validCount := rfl
@[simp] theorem consumeBytes_lastOutcome (n : Nat) : (consumeBytes n s).lastOutcome = s.lastOutcome := rfl
@[simp] theorem consumeBytes_lastFrame (n : Nat) : (consumeBytes n s).lastFrame = s.lastFrame := rfl
@[simp] theorem consumeBytes_ck (n : Nat) : (consumeBytes n s).ck = s.ck := rfl
@[simp] theorem consumeBytes_err (n : Nat) : (consumeBytes n s).err = s.err := rfl
@[simp] theorem consumeBytes_runCount (n : Nat) : (consumeBytes n s).runCount = s.runCount := rfl
@[simp] theorem consumeBytes_cancel (n : Nat) : (consumeBytes n s).cancel = s.cancel := rfl
@[simp] theorem consumeBytes_foReady (n : Nat) : (consumeBytes n s).foReady = s.foReady := rfl
@[simp] theorem consumeBytes_inputs (n : Nat) : (consumeBytes n s).inputs = s.inputs := rfl
@[simp] theorem consumeBytes_out (n : Nat) : (consumeBytes n s).out = s.out := rfl

@[simp] theorem clearBuffer_params : (clearBuffer s).params = s.params := rfl
@[simp] theorem clearBuffer_validCount : (clearBuffer s).validCount = s.validCount := rfl
@[simp] theorem clearBuffer_lastOutcome : (clearBuffer s).lastOutcome = s.lastOutcome := rfl
@[simp] theorem clearBuffer_lastFrame : (clearBuffer s).lastFrame = s.lastFrame := rfl
@[simp] theorem clearBuffer_ck : (clearBuffer s).ck = s.ck := rfl
@[simp] theorem clearBuffer_err : (clearBuffer s).err = s.err := rfl
@[simp] theorem clearBuffer_runCount : (clearBuffer s).runCount = s.runCount := rfl
@[simp] theorem clearBuffer_cancel : (clearBuffer s).cancel = s.cancel := rfl
@[simp] theorem clearBuffer_foReady : (clearBuffer s).foReady = s.foReady := rfl
@[simp] theorem clearBuffer_inputs : (clearBuffer s).inputs = s.inputs := rfl
@[simp] theorem clearBuffer_out : (clearBuffer s).out = s.out := rfl

@[simp] theorem evictOldest_params : (evictOldest s).params = s.params := rfl
@[simp] theorem evictOldest_validCount : (evictOldest s).validCount = s.validCount := rfl
@[simp] theorem evictOldest_lastOutcome : (evictOldest s).lastOutcome = s.lastOutcome := rfl
@[simp] theorem evictOldest_lastFrame : (evictOldest s).lastFrame = s.lastFrame := rfl
@[simp] theorem evictOldest_ck : (evictOldest s).ck = s.ck := rfl
@[simp] theorem evictOldest_err : (evictOldest s).err = s.err := rfl
@[simp] theorem evictOldest_runCount : (evictOldest s).runCount = s.runCount := rfl
@[simp] theorem evictOldest_cancel : (evictOldest s).cancel = s.cancel := rfl
@[simp] theorem evictOldest_foReady : (evictOldest s).foReady = s.foReady := rfl
@[simp] theorem evictOldest_inputs : (evictOldest s).inputs = s.inputs := rfl
@[simp] theorem evictOldest_out : (evictOldest s).out = s.out := rfl

@[simp] theorem makeRoom_params : (makeRoom s).params = s.params := by unfold makeRoom; split <;> rfl
@[simp] theorem makeRoom_validCount : (makeRoom s).validCount = s.validCount := by unfold makeRoom; split <;> rfl
@[simp] theorem makeRoom_lastOutcome : (makeRoom s).lastOutcome = s.lastOutcome := by unfold makeRoom; split <;> rfl
@[simp] theorem makeRoom_lastFrame : (makeRoom s).lastFrame = s.lastFrame := by unfold makeRoom; split <;> rfl
@[simp] theorem makeRoom_ck : (makeRoom s).ck = s.ck := by unfold makeRoom; split <;> rfl
@[simp] theorem makeRoom_err : (makeRoom s).err = s.err := by unfold makeRoom; split <;> rfl
@[simp] theorem makeRoom_runCount : (makeRoom s).runCount = s.runCount := by unfold makeRoom; split <;> rfl
@[simp] theorem makeRoom_cancel : (makeRoom s).cancel = s.cancel := by unfold makeRoom; split <;> rfl
@[simp] theorem makeRoom_foReady : (makeRoom s).foReady = s.foReady := by unfold makeRoom; split <;> rfl
@[simp] theorem makeRoom_inputs : (makeRoom s).inputs = s.inputs := by unfold makeRoom; split <;> rfl
@[simp] theorem makeRoom_out : (makeRoom s).out = s.out := by unfold makeRoom; split <;> rfl

@[simp] theorem appendByte_params (b : Byte) : (appendByte b s).params = s.params := by simp [appendByte]
@[simp] theorem appendByte_validCount (b : Byte) : (appendByte b s).validCount = s.validCount := by simp [appendByte]
@[simp] theorem appendByte_lastOutcome (b : Byte) : (appendByte b s).lastOutcome = s.lastOutcome := by simp [appendByte]
@[simp] theorem appendByte_lastFrame (b : Byte) : (appendByte b s).lastFrame = s.lastFrame := by simp [appendByte]
@[simp] theorem appendByte_ck (b : Byte) : (appendByte b s).ck = s.ck := by simp [appendByte]
@[simp] theorem appendByte_err (b : Byte) : (appendByte b s).err = s.err := by simp [appendByte]
@[simp] theorem appendByte_runCount (b : Byte) : (appendByte b s).runCount = s.runCount := by simp [appendByte]
@[simp] theorem appendByte_cancel (b : Byte) : (appendByte b s).cancel = s.cancel := by simp [appendByte]
@[simp] theorem appendByte_foReady (b : Byte) : (appendByte b s).foReady = s.foReady := by simp [appendByte]
@[simp] theorem appendByte_inputs (b : Byte) : (appendByte b s).inputs = s.inputs := by simp [appendByte]
@[simp] theorem appendByte_out (b : Byte) : (appendByte b s).out = s.out := by simp [appendByte]

@[simp] theorem consumeBytes_buf (n : Nat) : (consumeBytes n s).buf = s.buf := rfl
@[simp] theorem consumeBytes_start (n : Nat) :
    (consumeBytes n s).start = (s.start + min n s.count) % s.params.capacity := rfl
@[simp] theorem consumeBytes_count (n : Nat) : (consumeBytes n s).count = s.count - min n s.count := rfl
@[simp] theorem clearBuffer_buf : (clearBuffer s).buf = s.buf := rfl
@[simp] theorem clearBuffer_start : (clearBuffer s).start = 0 := rfl
@[simp] theorem clearBuffer_count : (clearBuffer s).count = 0 := rfl
@[simp] theorem evictOldest_buf : (evictOldest s).buf = s.buf := rfl
@[simp] theorem makeRoom_buf : (makeRoom s).buf = s.buf := by unfold makeRoom; split <;> rfl
@[simp] theorem appendByte_buf (b : Byte) :
    (appendByte b s).buf = Memory.write s.buf (appendAddress s) b := by simp [appendByte]
@[simp] theorem appendByte_start (b : Byte) : (appendByte b s).start = (makeRoom s).start := rfl
@[simp] theorem appendByte_count (b : Byte) : (appendByte b s).count = (makeRoom s).count + 1 := rfl

/-! The window as a list. -/

theorem peekByte_congr {s t : State} (hb : t.buf = s.buf) (hs : t.start = s.start)
    (hp : t.params = s.params) (i : Nat) : peekByte t i = peekByte s i := by
  unfold peekByte physical; rw [hb, hs, hp]

@[simp] theorem peekRange_length (i n : Nat) : (peekRange s i n).length = n := by simp [peekRange]

@[simp] theorem window_length : (window s).length = s.count := by simp [window]

theorem peekRange_getElem? (i n j : Nat) :
    (peekRange s i n)[j]? = if j < n then some (peekByte s (i + j)) else none := by
  unfold peekRange
  rw [List.getElem?_map]
  split
  · next h => simp [h]
  · next h => simp [Nat.le_of_not_lt h]

/-- The window's bytes are what `Peek` reads. -/
theorem window_getElem? (i : Nat) :
    (window s)[i]? = if i < s.count then some (peekByte s i) else none := by
  simp [window, peekRange_getElem?]

theorem window_getElem?_eq_some {s : State} {i : Nat} {b : Byte} :
    (window s)[i]? = some b ↔ i < s.count ∧ peekByte s i = b := by
  rw [window_getElem?]
  split <;> simp_all

@[simp] theorem window_getElem (i : Nat) (h : i < (window s).length) : (window s)[i] = peekByte s i :=
  Option.some.inj (by rw [← List.getElem?_eq_getElem h, window_getElem?, if_pos (by simpa using h)])

/-- A range inside the window is a slice of it. -/
theorem peekRange_eq_slice {s : State} {i n : Nat} (h : i + n ≤ s.count) :
    peekRange s i n = ((window s).drop i).take n := by
  apply List.ext_getElem?
  intro j
  rw [peekRange_getElem?]
  split
  · next hj => simp [hj, show i + j < s.count by omega]
  · next hj => rw [List.getElem?_eq_none (by simp; omega)]

/-- Equal windows hold equal bytes. -/
theorem peekByte_eq_of_window {s t : State} (h : window s = window t) {i : Nat} (hi : i < s.count) :
    peekByte s i = peekByte t i := by
  have hc : s.count = t.count := by simpa using congrArg List.length h
  have := congrArg (fun l => l[i]?) h
  simpa [window_getElem?, hi, hc ▸ hi] using this

theorem peekRange_eq_of_window {s t : State} (h : window s = window t) {i n : Nat}
    (hi : i + n ≤ s.count) : peekRange s i n = peekRange t i n := by
  have hc : s.count = t.count := by simpa using congrArg List.length h
  rw [peekRange_eq_slice hi, peekRange_eq_slice (hc ▸ hi), h]

/-! Consume and Clear (40_ringbuffer.md R63, R64). -/

theorem peekByte_consumeBytes (n i : Nat) :
    peekByte (consumeBytes n s) i = peekByte s (min n s.count + i) := by
  simp only [peekByte, physical, consumeBytes_buf, consumeBytes_start, consumeBytes_params]
  rw [Nat.mod_add_mod, Nat.add_assoc]

/-- `Consume(n)` drops the first n bytes of the window (R63). -/
@[simp] theorem window_consumeBytes (n : Nat) : window (consumeBytes n s) = (window s).drop n := by
  apply List.ext_getElem?
  intro i
  rw [window_getElem?, List.getElem?_drop, window_getElem?, consumeBytes_count, peekByte_consumeBytes]
  by_cases h : n ≤ s.count
  · rw [Nat.min_eq_left h]
    simp only [show (i < s.count - n) = (n + i < s.count) by apply propext; omega]
  · rw [if_neg (by omega), if_neg (by omega)]

@[simp] theorem window_clearBuffer : window (clearBuffer s) = [] := rfl

/-! Append (40_ringbuffer.md R62). -/

theorem makeRoom_count_lt {s : State} (hc : 0 < s.params.capacity) (h : s.count ≤ s.params.capacity) :
    (makeRoom s).count < s.params.capacity := by
  unfold makeRoom
  split
  · simp only [evictOldest, State.setBuffer_count]; omega
  · omega

theorem makeRoom_start_lt {s : State} (h : s.start < s.params.capacity) :
    (makeRoom s).start < s.params.capacity := by
  unfold makeRoom
  split
  · exact Nat.mod_lt _ (by omega)
  · exact h

/-- Evicting drops the oldest byte; without need of room nothing changes. -/
theorem window_makeRoom (hc : 0 < s.params.capacity) :
    window (makeRoom s) = if s.count = s.params.capacity then (window s).drop 1 else window s := by
  unfold makeRoom
  split
  · next h =>
    have : evictOldest s = consumeBytes 1 s := by
      simp only [evictOldest, consumeBytes, consumed, Nat.min_eq_left (show 1 ≤ s.count by omega)]
    rw [this, window_consumeBytes]
  · rfl

/-- Different logical indices of one window stand at different physical indices. -/
theorem physical_inj {s : State} {i j : Nat} (hi : i < s.params.capacity) (hj : j < s.params.capacity)
    (h : physical s i = physical s j) : i = j := by
  unfold physical at h
  have hc : 0 < s.params.capacity := by omega
  have h' : i ≡ j [MOD s.params.capacity] := Nat.ModEq.add_left_cancel' s.start h
  exact Nat.ModEq.eq_of_lt_of_lt h' hi hj

theorem physical_lt {s : State} (hc : 0 < s.params.capacity) (i : Nat) :
    physical s i < s.params.capacity := Nat.mod_lt _ hc

/-- `Append(b)` in a buffer with room: the window's bytes stay, and the new one follows them (R62). -/
theorem window_appendByte {s : State} (b : Byte) (hc : 0 < s.params.capacity)
    (hn : s.count ≤ s.params.capacity) (hw : Memory.wf s.buf = true) :
    window (appendByte b s) =
      (if s.count = s.params.capacity then (window s).drop 1 else window s) ++ [b] := by
  rw [← window_makeRoom s hc]
  have hlt := makeRoom_count_lt hc hn
  apply List.ext_getElem?
  intro i
  have hp : peekByte (appendByte b s) i =
      if physical (makeRoom s) i = physical (makeRoom s) (makeRoom s).count then b
      else peekByte (makeRoom s) i := by
    have : physical (appendByte b s) i = physical (makeRoom s) i := by simp [physical]
    unfold peekByte
    rw [this, appendByte_buf, Memory.read_write _ _ _ hw, makeRoom_buf]
    rfl
  rw [window_getElem?, hp, appendByte_count]
  rcases Nat.lt_trichotomy i (makeRoom s).count with h | h | h
  · rw [if_pos (by omega), List.getElem?_append_left (by simpa using h), window_getElem?, if_pos h,
      if_neg]
    intro he
    exact Nat.ne_of_lt h (physical_inj (by simp; omega) (by simpa using hlt) he)
  · subst h
    simp
  · rw [if_neg (by omega), List.getElem?_eq_none (by simp; omega)]

/-- The count after `Append(b)` (R62). -/
theorem appendByte_count_eq {s : State} (b : Byte) (hc : 0 < s.params.capacity)
    (hn : s.count ≤ s.params.capacity) :
    (appendByte b s).count = min (s.count + 1) s.params.capacity := by
  rw [appendByte_count]
  unfold makeRoom
  split
  · simp only [evictOldest, State.setBuffer_count]; omega
  · omega

/-! FindSync (40_ringbuffer.md R65). -/

theorem syncAt_iff {s : State} {i : Nat} (h : i + 1 < s.count) :
    syncAt s i = true ↔ SyncIn (window s) i := by
  simp [syncAt, SyncIn, h, show i < s.count by omega]

theorem SyncIn.lt {s : State} {i : Nat} (h : SyncIn (window s) i) : i + 1 < s.count :=
  (window_getElem?_eq_some.1 h.2).1

/-- What `FindSync` finds is the lowest offset with a sync pattern (R65). -/
theorem findSync_eq_some {s : State} {off : Nat} :
    findSync s = some off ↔ SyncIn (window s) off ∧ ∀ j < off, ¬ SyncIn (window s) j := by
  unfold findSync
  rw [List.find?_range_eq_some]
  constructor
  · rintro ⟨h, hm, hl⟩
    have hm := List.mem_range.1 hm
    refine ⟨(syncAt_iff (by omega)).1 h, fun j hj hs => ?_⟩
    have := hl j hj
    simp [(syncAt_iff (by omega)).2 hs] at this
  · rintro ⟨h, hl⟩
    have := h.lt
    refine ⟨(syncAt_iff this).2 h, List.mem_range.2 (by omega), fun j hj => ?_⟩
    rw [Bool.not_eq_true']
    by_contra hb
    exact hl j hj ((syncAt_iff (by omega)).1 (by simpa using hb))

/-- `FindSync` finds nothing exactly when the window holds no sync pattern (R65). -/
theorem findSync_eq_none {s : State} : findSync s = none ↔ NoSync (window s) := by
  unfold findSync
  rw [List.find?_eq_none]
  constructor
  · intro h i hi
    have := hi.lt
    exact h i (List.mem_range.2 (by omega)) ((syncAt_iff this).2 hi)
  · intro h i hi hs
    have := List.mem_range.1 hi
    exact h i ((syncAt_iff (by omega)).1 hs)

theorem findSync_congr {s t : State} (h : window s = window t) : findSync s = findSync t := by
  have hc : s.count = t.count := by simpa using congrArg List.length h
  unfold findSync
  rw [hc]
  apply List.find?_congr
  intro i hi
  have := List.mem_range.1 hi
  unfold syncAt
  rw [peekByte_eq_of_window h (by omega), peekByte_eq_of_window h (by omega)]

end Sys2Proof.Machine
end

