-- ==== Sys2Proof/Laws/Checksum.lean ====
section
/-! SUPPORT. The checksum: CK's fields, and `Fletcher8` one byte at a time (41_extractor.md R84). -/

namespace Sys2Proof.Machine

@[simp] theorem ckA_packCk (a b : Byte) : ckA (packCk a b) = a := by
  unfold ckA packCk
  rw [BitVec.extractLsb'_append_eq_ite]
  simp

@[simp] theorem ckB_packCk (a b : Byte) : ckB (packCk a b) = b := by
  unfold ckB packCk
  rw [BitVec.extractLsb'_append_eq_of_le (by omega), BitVec.extractLsb'_append_eq_ite]
  simp

/-- Bits [31:16] of CK read 0 (10_state.md R25). -/
@[simp] theorem packCk_reserved (a b : Byte) : (packCk a b).extractLsb' 16 16 = 0#16 := by
  unfold packCk
  rw [BitVec.extractLsb'_append_eq_of_le (by omega), BitVec.extractLsb'_append_eq_of_le (by omega)]
  exact BitVec.extractLsb'_eq_self

@[simp] theorem fletcher8_nil : fletcher8 [] = (0#8, 0#8) := rfl

/-- One more byte at the end is one more accumulation (R84). -/
@[simp] theorem fletcher8_append_one (l : List Byte) (x : Byte) :
    fletcher8 (l ++ [x]) = checksumStep (fletcher8 l) x := by
  simp [fletcher8]

@[simp] theorem checksumStep_fst (acc : Byte × Byte) (x : Byte) : (checksumStep acc x).1 = acc.1 + x := rfl

@[simp] theorem checksumStep_snd (acc : Byte × Byte) (x : Byte) :
    (checksumStep acc x).2 = acc.2 + (acc.1 + x) := rfl

/-- CK as a number: `ckA` plus 256 times `ckB` (10_state.md R25). -/
theorem packCk_eq_ofNat (a b : Byte) : packCk a b = BitVec.ofNat 32 (a.toNat + 256 * b.toNat) := by
  apply BitVec.eq_of_toNat_eq
  have := a.isLt
  have := b.isLt
  unfold packCk
  simp only [BitVec.toNat_append, BitVec.toNat_ofNat]
  rw [← Nat.shiftLeft_add_eq_or_of_lt (by omega)]
  simp [Nat.shiftLeft_eq]
  omega

end Sys2Proof.Machine
end

