-- ==== Sys2Proof/Laws/Encoding.lean ====
section
/-! SUPPORT. The fields of a word made of an opcode, a reserved area and an operand (30_encoding.md R52), both ways:
read back from such a word, and put together again. -/

namespace Sys2Proof

/-! Format Z: an opcode over 28 bits. -/

@[simp] theorem opcodeOf_formatZ (op : BitVec 4) (area : BitVec 28) : opcodeOf (op ++ area) = op := by
  unfold opcodeOf
  rw [BitVec.extractLsb'_append_eq_of_le (by omega)]
  exact BitVec.extractLsb'_eq_self

@[simp] theorem areaOf_formatZ (op : BitVec 4) (area : BitVec 28) :
    (op ++ area : Word).extractLsb' 0 28 = area := by
  rw [BitVec.extractLsb'_append_eq_ite]
  simp

theorem formatZ_eta (w : Word) : (opcodeOf w ++ w.extractLsb' 0 28 : Word) = w := by
  unfold opcodeOf
  rw [BitVec.extractLsb'_append_extractLsb'_eq_extractLsb' (by omega)]
  exact BitVec.extractLsb'_eq_self

/-! The other formats: an opcode over a reserved area over an operand of `n` bits. -/

@[simp] theorem opcodeOf_formatB (op : BitVec 4) (r : BitVec 20) (x : Byte) :
    opcodeOf (op ++ r ++ x) = op := by
  unfold opcodeOf
  rw [BitVec.extractLsb'_append_eq_of_le (by omega), BitVec.extractLsb'_append_eq_of_le (by omega)]
  exact BitVec.extractLsb'_eq_self

@[simp] theorem opcodeOf_formatH (op : BitVec 4) (r : BitVec 12) (x : Half) :
    opcodeOf (op ++ r ++ x) = op := by
  unfold opcodeOf
  rw [BitVec.extractLsb'_append_eq_of_le (by omega), BitVec.extractLsb'_append_eq_of_le (by omega)]
  exact BitVec.extractLsb'_eq_self

@[simp] theorem opcodeOf_formatR (op : BitVec 4) (r : BitVec 24) (x : BitVec 4) :
    opcodeOf (op ++ r ++ x) = op := by
  unfold opcodeOf
  rw [BitVec.extractLsb'_append_eq_of_le (by omega), BitVec.extractLsb'_append_eq_of_le (by omega)]
  exact BitVec.extractLsb'_eq_self

@[simp] theorem imm8Of_formatB (op : BitVec 4) (r : BitVec 20) (x : Byte) : imm8Of (op ++ r ++ x) = x := by
  unfold imm8Of
  rw [BitVec.extractLsb'_append_eq_ite]
  simp

@[simp] theorem imm16Of_formatH (op : BitVec 4) (r : BitVec 12) (x : Half) : imm16Of (op ++ r ++ x) = x := by
  unfold imm16Of
  rw [BitVec.extractLsb'_append_eq_ite]
  simp

@[simp] theorem ridxOf_formatR (op : BitVec 4) (r : BitVec 24) (x : BitVec 4) : ridxOf (op ++ r ++ x) = x := by
  unfold ridxOf
  rw [BitVec.extractLsb'_append_eq_ite]
  simp

@[simp] theorem reservedOf_formatB (op : BitVec 4) (r : BitVec 20) (x : Byte) :
    (op ++ r ++ x : Word).extractLsb' 8 20 = r := by
  rw [BitVec.extractLsb'_append_eq_of_le (by omega), BitVec.extractLsb'_append_eq_ite]
  simp

@[simp] theorem reservedOf_formatH (op : BitVec 4) (r : BitVec 12) (x : Half) :
    (op ++ r ++ x : Word).extractLsb' 16 12 = r := by
  rw [BitVec.extractLsb'_append_eq_of_le (by omega), BitVec.extractLsb'_append_eq_ite]
  simp

@[simp] theorem reservedOf_formatR (op : BitVec 4) (r : BitVec 24) (x : BitVec 4) :
    (op ++ r ++ x : Word).extractLsb' 4 24 = r := by
  rw [BitVec.extractLsb'_append_eq_of_le (by omega), BitVec.extractLsb'_append_eq_ite]
  simp

theorem formatB_eta (w : Word) : (opcodeOf w ++ w.extractLsb' 8 20 ++ imm8Of w : Word) = w := by
  unfold opcodeOf imm8Of
  rw [BitVec.extractLsb'_append_extractLsb'_eq_extractLsb' (by omega),
    BitVec.extractLsb'_append_extractLsb'_eq_extractLsb' (by omega)]
  exact BitVec.extractLsb'_eq_self

theorem formatH_eta (w : Word) : (opcodeOf w ++ w.extractLsb' 16 12 ++ imm16Of w : Word) = w := by
  unfold opcodeOf imm16Of
  rw [BitVec.extractLsb'_append_extractLsb'_eq_extractLsb' (by omega),
    BitVec.extractLsb'_append_extractLsb'_eq_extractLsb' (by omega)]
  exact BitVec.extractLsb'_eq_self

theorem formatR_eta (w : Word) : (opcodeOf w ++ w.extractLsb' 4 24 ++ ridxOf w : Word) = w := by
  unfold opcodeOf ridxOf
  rw [BitVec.extractLsb'_append_extractLsb'_eq_extractLsb' (by omega),
    BitVec.extractLsb'_append_extractLsb'_eq_extractLsb' (by omega)]
  exact BitVec.extractLsb'_eq_self

/-! The fields of each command's word (30_encoding.md R54). -/

@[simp] theorem opcodeOf_encode_nop : opcodeOf (encode .nop) = 0#4 := opcodeOf_formatZ _ _
@[simp] theorem areaOf_encode_nop : (encode .nop).extractLsb' 0 28 = 0#28 := areaOf_formatZ _ _
@[simp] theorem opcodeOf_encode_findsync : opcodeOf (encode .findsync) = 4#4 := opcodeOf_formatZ _ _
@[simp] theorem areaOf_encode_findsync : (encode .findsync).extractLsb' 0 28 = 0#28 := areaOf_formatZ _ _
@[simp] theorem opcodeOf_encode_clear : opcodeOf (encode .clear) = 5#4 := opcodeOf_formatZ _ _
@[simp] theorem areaOf_encode_clear : (encode .clear).extractLsb' 0 28 = 0#28 := areaOf_formatZ _ _
@[simp] theorem opcodeOf_encode_step : opcodeOf (encode .step) = 6#4 := opcodeOf_formatZ _ _
@[simp] theorem areaOf_encode_step : (encode .step).extractLsb' 0 28 = 0#28 := areaOf_formatZ _ _
@[simp] theorem opcodeOf_encode_run : opcodeOf (encode .run) = 7#4 := opcodeOf_formatZ _ _
@[simp] theorem areaOf_encode_run : (encode .run).extractLsb' 0 28 = 0#28 := areaOf_formatZ _ _
@[simp] theorem opcodeOf_encode_ckrst : opcodeOf (encode .ckrst) = 8#4 := opcodeOf_formatZ _ _
@[simp] theorem areaOf_encode_ckrst : (encode .ckrst).extractLsb' 0 28 = 0#28 := areaOf_formatZ _ _
@[simp] theorem opcodeOf_encode_append (x : Byte) : opcodeOf (encode (.append x)) = 1#4 := opcodeOf_formatB _ _ _
@[simp] theorem imm8Of_encode_append (x : Byte) : imm8Of (encode (.append x)) = x := imm8Of_formatB _ _ _
@[simp] theorem reservedOf_encode_append (x : Byte) : (encode (.append x)).extractLsb' 8 20 = 0#20 :=
  reservedOf_formatB _ _ _
@[simp] theorem opcodeOf_encode_ckfeed (x : Byte) : opcodeOf (encode (.ckfeed x)) = 9#4 := opcodeOf_formatB _ _ _
@[simp] theorem imm8Of_encode_ckfeed (x : Byte) : imm8Of (encode (.ckfeed x)) = x := imm8Of_formatB _ _ _
@[simp] theorem reservedOf_encode_ckfeed (x : Byte) : (encode (.ckfeed x)).extractLsb' 8 20 = 0#20 :=
  reservedOf_formatB _ _ _
@[simp] theorem opcodeOf_encode_peek (x : Half) : opcodeOf (encode (.peek x)) = 2#4 := opcodeOf_formatH _ _ _
@[simp] theorem imm16Of_encode_peek (x : Half) : imm16Of (encode (.peek x)) = x := imm16Of_formatH _ _ _
@[simp] theorem reservedOf_encode_peek (x : Half) : (encode (.peek x)).extractLsb' 16 12 = 0#12 :=
  reservedOf_formatH _ _ _
@[simp] theorem opcodeOf_encode_consume (x : Half) : opcodeOf (encode (.consume x)) = 3#4 := opcodeOf_formatH _ _ _
@[simp] theorem imm16Of_encode_consume (x : Half) : imm16Of (encode (.consume x)) = x := imm16Of_formatH _ _ _
@[simp] theorem reservedOf_encode_consume (x : Half) : (encode (.consume x)).extractLsb' 16 12 = 0#12 :=
  reservedOf_formatH _ _ _
@[simp] theorem opcodeOf_encode_rdreg (x : BitVec 4) : opcodeOf (encode (.rdreg x)) = 10#4 := opcodeOf_formatR _ _ _
@[simp] theorem ridxOf_encode_rdreg (x : BitVec 4) : ridxOf (encode (.rdreg x)) = x := ridxOf_formatR _ _ _
@[simp] theorem reservedOf_encode_rdreg (x : BitVec 4) : (encode (.rdreg x)).extractLsb' 4 24 = 0#24 :=
  reservedOf_formatR _ _ _

/-! Arithmetic readings of the fields. -/

theorem opcodeOf_toNat (w : Word) : (opcodeOf w).toNat = w.toNat / 2 ^ 28 := by
  have := w.isLt
  simp only [opcodeOf, BitVec.extractLsb'_toNat, Nat.shiftRight_eq_div_pow]
  omega

theorem field_toNat (w : Word) (start len : Nat) :
    (w.extractLsb' start len).toNat = w.toNat / 2 ^ start % 2 ^ len := by
  simp [BitVec.extractLsb'_toNat, Nat.shiftRight_eq_div_pow]

/-! The byte-wide link (20_memory.md R39). -/

/-- The bytes of a word, put together again, are the word. -/
@[simp] theorem wordOfBytes_bytesOfWord (w : Word) :
    wordOfBytes (w.extractLsb' 0 8) (w.extractLsb' 8 8) (w.extractLsb' 16 8) (w.extractLsb' 24 8) = w := by
  unfold wordOfBytes
  rw [BitVec.extractLsb'_append_extractLsb'_eq_extractLsb' (by omega),
    BitVec.extractLsb'_append_extractLsb'_eq_extractLsb' (by omega),
    BitVec.extractLsb'_append_extractLsb'_eq_extractLsb' (by omega)]
  exact BitVec.extractLsb'_eq_self

end Sys2Proof
end

