-- ==== Sys2Proof/Laws/Extractor.lean ====
section
/-! SUPPORT. What one iteration can do, said once (41_extractor.md R76 to R88), and what the RUN loop can do with it
(R95). -/

namespace Sys2Proof.Machine

/-! The header as numbers of the window. -/

/-- The payload length is little-endian (20_memory.md R37). -/
theorem payloadLength_toNat (low high : Byte) :
    (payloadLength low high).toNat = low.toNat + 256 * high.toNat := by
  have hl := low.isLt
  have hh := high.isLt
  have h1 : ((high.setWidth 16 : Half) <<< 8).toNat = high.toNat <<< 8 := by
    simp only [BitVec.toNat_shiftLeft, BitVec.toNat_setWidth, Nat.shiftLeft_eq]
    omega
  have h2 : ((low.setWidth 16 : Half)).toNat = low.toNat := by
    simp only [BitVec.toNat_setWidth]; omega
  unfold payloadLength
  rw [BitVec.toNat_or, h1, h2, ← Nat.shiftLeft_add_eq_or_of_lt (by omega), Nat.shiftLeft_eq]
  omega

/-- The header depends on the window alone once six bytes are there. -/
theorem parseHeader_congr {s t : State} (h : window s = window t) (hc : 6 ≤ s.count) :
    parseHeader s = parseHeader t := by
  unfold parseHeader
  rw [peekByte_eq_of_window h (by omega), peekByte_eq_of_window h (i := 3) (by omega),
    peekByte_eq_of_window h (i := 4) (by omega), peekByte_eq_of_window h (i := 5) (by omega)]

/-- A candidate frame whose header is legal and whose last byte has come (R80, R82, R83). -/
structure Complete (s : State) : Prop where
  sync : SyncIn (window s) 0
  legal : (parseHeader s).plen.toNat ≤ s.params.maxPayload
  whole : 8 + (parseHeader s).plen.toNat ≤ s.count

/-- The bytes the checksum covers are a slice of the window (R86). -/
theorem frameSums_eq {s : State} (h : 6 + (parseHeader s).plen.toNat ≤ s.count) :
    frameSums (parseHeader s) s =
      fletcher8 (((window s).drop 2).take (4 + (parseHeader s).plen.toNat)) := by
  unfold frameSums
  rw [peekRange_eq_slice (by omega)]

/-- The payload is a slice of the window (R88). -/
theorem payloadBytes_eq {s : State} (h : 6 + (parseHeader s).plen.toNat ≤ s.count) :
    payloadBytes (parseHeader s) s = ((window s).drop 6).take (parseHeader s).plen.toNat := by
  unfold payloadBytes
  rw [peekRange_eq_slice (by simpa [Config.headerLen] using h)]
  rfl

/-- The state of step 10 before the record leaves: CK, VALID_COUNT and LAST_FRAME written (R86, R88). -/
def afterCount (s : State) : State :=
  countFrame (parseHeader s) (writeSums (frameSums (parseHeader s) s) s)

/-- Everything an iteration can do (41_extractor.md R76), one case for each way it ends. -/
inductive IterationCase (s : State) : Iteration → Prop where
  | needData (hc : s.count < 2) : IterationCase s (.ended .needData s)
  | noSync (hc : 2 ≤ s.count) (hn : NoSync (window s)) :
      IterationCase s (.ended .noSync (consumeBytes (s.count - 1) s))
  | junk (off : Nat) (hpos : 0 < off) (hs : SyncIn (window s) off)
      (hl : ∀ j < off, ¬ SyncIn (window s) j) : IterationCase s (.ended .junk (consumeBytes off s))
  | needHeader (hs : SyncIn (window s) 0) (hc : s.count < 6) : IterationCase s (.ended .needHeader s)
  | badLength (hs : SyncIn (window s) 0) (hc : 6 ≤ s.count)
      (hp : s.params.maxPayload < (parseHeader s).plen.toNat) :
      IterationCase s (.ended .badLength (consumeBytes 2 s))
  | needFrame (hs : SyncIn (window s) 0) (h6 : 6 ≤ s.count)
      (hp : (parseHeader s).plen.toNat ≤ s.params.maxPayload)
      (hc : s.count < 8 + (parseHeader s).plen.toNat) : IterationCase s (.ended .needFrame s)
  | badChecksum (hf : Complete s) (ht : trailerMatches (parseHeader s) s = false) :
      IterationCase s
        (.ended .badChecksum (consumeBytes 2 (writeSums (frameSums (parseHeader s) s) s)))
  | otherFrame (hf : Complete s) (ht : trailerMatches (parseHeader s) s = true)
      (hg : isTarget (parseHeader s) = false) :
      IterationCase s (.ended .frameOk (consumeBytes (8 + (parseHeader s).plen.toNat) (afterCount s)))
  | targetFrame (hf : Complete s) (ht : trailerMatches (parseHeader s) s = true)
      (hg : isTarget (parseHeader s) = true) (hd : (Pin.sample s.foReady).1 = true) :
      IterationCase s
        (.ended .frameOk
          (consumeBytes (8 + (parseHeader s).plen.toNat)
            (((afterCount s).setFoReady (Pin.sample s.foReady).2).emit
              (.frame (frameRecord (parseHeader s) s)))))
  | hung (hf : Complete s) (ht : trailerMatches (parseHeader s) s = true)
      (hg : isTarget (parseHeader s) = true) (hd : (Pin.sample s.foReady).1 = false) :
      IterationCase s (.hung ((afterCount s).setFoReady (Pin.sample s.foReady).2))

/-- One of the cases holds (41_extractor.md R75: an iteration ends with exactly one outcome). -/
theorem iterate_case (s : State) : IterationCase s (iterate s) := by
  unfold iterate
  split
  · exact .needData ‹_›
  next hc =>
    split
    · next hf => exact .noSync (by omega) (findSync_eq_none.1 hf)
    next off hf =>
      obtain ⟨hs, hl⟩ := findSync_eq_some.1 hf
      split
      · exact .junk off ‹_› hs hl
      next h0 =>
        obtain rfl : off = 0 := by omega
        unfold examineCandidate
        split
        · exact .needHeader hs ‹_›
        next h6 =>
          have h6 : 6 ≤ s.count := by simpa [Config.headerLen] using h6
          split
          · exact .badLength hs h6 ‹_›
          next hp =>
            split
            · exact .needFrame hs h6 (by omega) ‹_›
            next hw =>
              have hf : Complete s := ⟨hs, by omega, by simpa [frameLength, Config.frameOverhead] using hw⟩
              unfold checkFrame
              split
              next ht =>
                unfold acceptFrame
                split
                next hg =>
                  unfold emitAndConsume
                  split
                  · next hd => exact .targetFrame hf ht hg hd
                  · next hd => exact .hung hf ht hg (Bool.eq_false_iff.2 hd)
                next hg => exact .otherFrame hf ht (by simpa using hg)
              next ht => exact .badChecksum hf (by simpa using ht)

/-- The case of an iteration that ended. -/
theorem iterate_ended {s s' : State} {o : IterOutcome} (h : iterate s = .ended o s') :
    IterationCase s (.ended o s') := h ▸ iterate_case s

/-- The case of an iteration that hangs. -/
theorem iterate_hung {s s' : State} (h : iterate s = .hung s') : IterationCase s (.hung s') :=
  h ▸ iterate_case s

/-! The fields after step 10's writes. -/

section
variable (s : State)
@[simp] theorem afterCount_params : (afterCount s).params = s.params := rfl
@[simp] theorem afterCount_buf : (afterCount s).buf = s.buf := rfl
@[simp] theorem afterCount_start : (afterCount s).start = s.start := rfl
@[simp] theorem afterCount_count : (afterCount s).count = s.count := rfl
@[simp] theorem afterCount_validCount : (afterCount s).validCount = s.validCount + 1#32 := rfl
@[simp] theorem afterCount_lastOutcome : (afterCount s).lastOutcome = s.lastOutcome := rfl
@[simp] theorem afterCount_lastFrame : (afterCount s).lastFrame =
    packFrame (parseHeader s).cls (parseHeader s).id (parseHeader s).plen := rfl
@[simp] theorem afterCount_ck : (afterCount s).ck =
    packCk (frameSums (parseHeader s) s).1 (frameSums (parseHeader s) s).2 := rfl
@[simp] theorem afterCount_err : (afterCount s).err = s.err := rfl
@[simp] theorem afterCount_runCount : (afterCount s).runCount = s.runCount := rfl
@[simp] theorem afterCount_cancel : (afterCount s).cancel = s.cancel := rfl
@[simp] theorem afterCount_foReady : (afterCount s).foReady = s.foReady := rfl
@[simp] theorem afterCount_inputs : (afterCount s).inputs = s.inputs := rfl
@[simp] theorem afterCount_out : (afterCount s).out = s.out := rfl
@[simp] theorem window_afterCount : window (afterCount s) = window s := rfl
@[simp] theorem writeSums_eq_setCk (sums : Byte × Byte) : writeSums sums s = s.setCk (packCk sums.1 sums.2) := rfl
@[simp] theorem countIteration_eq : countIteration s = s.setRunCount (s.runCount.map (· + 1)) := rfl
@[simp] theorem sampleCancel_fst : (sampleCancel s).1 = (Pin.sample s.cancel).1 := rfl
@[simp] theorem sampleCancel_snd : (sampleCancel s).2 = s.setCancel (Pin.sample s.cancel).2 := rfl
end

/-! What no iteration touches, and what every iteration does to the buffer. -/

/-- An iteration removes bytes from the front of the buffer and touches nothing else of it; the fields it may write
besides are CK, VALID_COUNT, LAST_FRAME, the downstream's draws and the output history. -/
structure IterationFrame (s s' : State) : Prop where
  params : s'.params = s.params
  buf : s'.buf = s.buf
  start : s.start < s.params.capacity → s'.start < s.params.capacity
  window : ∃ n, window s' = (window s).drop n
  count : s'.count ≤ s.count
  lastOutcome : s'.lastOutcome = s.lastOutcome
  err : s'.err = s.err
  runCount : s'.runCount = s.runCount
  cancel : s'.cancel = s.cancel
  inputs : s'.inputs = s.inputs

theorem IterationFrame.refl (s : State) : IterationFrame s s :=
  ⟨rfl, rfl, id, ⟨0, rfl⟩, Nat.le_refl _, rfl, rfl, rfl, rfl, rfl⟩

/-- Removing bytes after writes that leave the buffer and the status alone. -/
theorem IterationFrame.of_consume {s t : State} (n : Nat) (h : IterationFrame s t) :
    IterationFrame s (consumeBytes n t) where
  params := by simp [h.params]
  buf := by simp [h.buf]
  start := fun hs => by
    rw [consumeBytes_start, h.params]
    exact Nat.mod_lt _ (by omega)
  window := by
    obtain ⟨m, hm⟩ := h.window
    exact ⟨m + n, by rw [window_consumeBytes, hm, List.drop_drop]⟩
  count := by rw [consumeBytes_count]; exact Nat.le_trans (Nat.sub_le _ _) h.count
  lastOutcome := by simp [h.lastOutcome]
  err := by simp [h.err]
  runCount := by simp [h.runCount]
  cancel := by simp [h.cancel]
  inputs := by simp [h.inputs]

theorem iterate_frame {s s' : State} {o : IterOutcome} (h : iterate s = .ended o s') :
    IterationFrame s s' := by
  have hc := iterate_ended h
  cases hc with
  | needData => exact .refl s
  | noSync => exact .of_consume _ (.refl s)
  | junk off => exact .of_consume _ (.refl s)
  | needHeader => exact .refl s
  | badLength => exact .of_consume _ (.refl s)
  | needFrame => exact .refl s
  | badChecksum => exact .of_consume _ ⟨rfl, rfl, id, ⟨0, rfl⟩, Nat.le_refl _, rfl, rfl, rfl, rfl, rfl⟩
  | otherFrame => exact .of_consume _ ⟨rfl, rfl, id, ⟨0, rfl⟩, Nat.le_refl _, rfl, rfl, rfl, rfl, rfl⟩
  | targetFrame => exact .of_consume _ ⟨rfl, rfl, id, ⟨0, rfl⟩, Nat.le_refl _, rfl, rfl, rfl, rfl, rfl⟩

/-! Fields as numbers. -/

/-- LAST_FRAME as a number: class, id and length, the class lowest (10_state.md R24). -/
theorem packFrame_eq_ofNat (c i : Byte) (l : Half) :
    packFrame c i l = BitVec.ofNat 32 (c.toNat + 2 ^ 8 * i.toNat + 2 ^ 16 * l.toNat) := by
  apply BitVec.eq_of_toNat_eq
  have := c.isLt
  have := i.isLt
  have := l.isLt
  unfold packFrame
  simp only [BitVec.toNat_append, BitVec.toNat_ofNat]
  rw [← Nat.shiftLeft_add_eq_or_of_lt (by omega), ← Nat.shiftLeft_add_eq_or_of_lt (by omega)]
  simp only [Nat.shiftLeft_eq]
  omega

/-- The target signature by its values (00_scope.md R5). -/
theorem isTarget_iff (h : Header) :
    isTarget h = true ↔ h.cls = 0x01#8 ∧ h.id = 0x07#8 ∧ h.plen.toNat = 92 := by
  have : h.plen.toNat = 92 ↔ h.plen = 92#16 := by rw [← BitVec.toNat_inj]; rfl
  rw [this]
  simp [isTarget, Config.targetClass, Config.targetId, Config.targetLen, and_assoc]

/-- The parsed length is the window's (20_memory.md R37). -/
theorem payloadLen_iff {s : State} {n : Nat} :
    PayloadLen (window s) n ↔ 6 ≤ s.count ∧ n = (parseHeader s).plen.toNat := by
  have hp : (parseHeader s).plen.toNat = (peekByte s 4).toNat + 256 * (peekByte s 5).toNat :=
    payloadLength_toNat _ _
  unfold PayloadLen
  simp only [window_getElem?_eq_some]
  constructor
  · rintro ⟨lo, hi, ⟨h4, rfl⟩, ⟨h5, rfl⟩, rfl⟩
    exact ⟨by omega, hp.symm⟩
  · rintro ⟨h6, rfl⟩
    exact ⟨_, _, ⟨by omega, rfl⟩, ⟨by omega, rfl⟩, hp⟩

/-- The trailer comparison by the window (R87). -/
theorem trailerMatches_iff {s : State} (h : Complete s) :
    trailerMatches (parseHeader s) s = true ↔
      TrailerAgrees (window s) (parseHeader s).plen.toNat := by
  have hw := h.whole
  unfold TrailerAgrees sumsOf trailerMatches
  rw [← frameSums_eq (by omega)]
  simp only [window_getElem?_eq_some, Bool.and_eq_true, beq_iff_eq]
  constructor
  · rintro ⟨h1, h2⟩; exact ⟨⟨by omega, h1.symm⟩, ⟨by omega, h2.symm⟩⟩
  · rintro ⟨⟨-, h1⟩, ⟨-, h2⟩⟩; exact ⟨h1.symm, h2.symm⟩

/-! Removing bytes that are there (40_ringbuffer.md R63). -/

theorem consumeBytes_eq_dropped {s : State} {n : Nat} (h : n ≤ s.count) : consumeBytes n s = s.dropped n := by
  simp [consumeBytes, State.dropped, consumed, Nat.min_eq_left h, State.setBuffer]

theorem window_dropped {s : State} {n : Nat} (h : n ≤ s.count) : window (s.dropped n) = (window s).drop n := by
  rw [← consumeBytes_eq_dropped h, window_consumeBytes]

/-! Which window gives which outcome: the converses of `iterate_ended`, as far as step 7. -/

theorem iterate_of_needData {s : State} (h : s.count < 2) : iterate s = .ended .needData s := by
  unfold iterate
  rw [if_pos h]

theorem iterate_of_noSync {s : State} (h : 2 ≤ s.count) (hn : NoSync (window s)) :
    iterate s = .ended .noSync (consumeBytes (s.count - 1) s) := by
  unfold iterate
  rw [if_neg (by omega), findSync_eq_none.2 hn]

theorem iterate_of_junk {s : State} {off : Nat} (h0 : 0 < off) (h : SyncIn (window s) off)
    (hl : ∀ j < off, ¬ SyncIn (window s) j) : iterate s = .ended .junk (consumeBytes off s) := by
  have := h.lt
  unfold iterate
  rw [if_neg (by omega), findSync_eq_some.2 ⟨h, hl⟩]
  simp [h0]

theorem iterate_of_sync {s : State} (h : SyncIn (window s) 0) : iterate s = examineCandidate s := by
  have := h.lt
  unfold iterate
  rw [if_neg (by omega), findSync_eq_some.2 ⟨h, by omega⟩]
  rfl

theorem iterate_of_needHeader {s : State} (h : SyncIn (window s) 0) (hc : s.count < 6) :
    iterate s = .ended .needHeader s := by
  rw [iterate_of_sync h]
  unfold examineCandidate
  rw [if_pos (by simpa [Config.headerLen] using hc)]

theorem iterate_of_badLength {s : State} (h : SyncIn (window s) 0) (hc : 6 ≤ s.count)
    (hp : s.params.maxPayload < (parseHeader s).plen.toNat) :
    iterate s = .ended .badLength (consumeBytes 2 s) := by
  rw [iterate_of_sync h]
  unfold examineCandidate
  rw [if_neg (by simpa [Config.headerLen] using hc), if_pos hp]

theorem iterate_of_needFrame {s : State} (h : SyncIn (window s) 0) (hc : 6 ≤ s.count)
    (hp : (parseHeader s).plen.toNat ≤ s.params.maxPayload)
    (hf : s.count < 8 + (parseHeader s).plen.toNat) : iterate s = .ended .needFrame s := by
  rw [iterate_of_sync h]
  unfold examineCandidate
  rw [if_neg (by simpa [Config.headerLen] using hc), if_neg (by omega),
    if_pos (by simpa [frameLength, Config.frameOverhead] using hf)]

theorem iterate_of_complete {s : State} (h : Complete s) : iterate s = checkFrame (parseHeader s) s := by
  obtain ⟨h, hp, hf⟩ := h
  rw [iterate_of_sync h]
  unfold examineCandidate
  rw [if_neg (by simp only [Config.headerLen]; omega), if_neg (by omega),
    if_neg (by simpa [frameLength, Config.frameOverhead] using hf)]

end Sys2Proof.Machine
end

