-- ==== Sys2Proof/Laws/Run.lean ====
section
/-! SUPPORT. The ports and the RUN loop: what a look at an input gives, what a response adds, and what holds all along
a RUN (41_extractor.md R95). -/

namespace Sys2Proof.Machine

/-! Inputs. -/

theorem Pin.Always.sample_fst {p : Pin} {b : Bool} (h : p.Always b) : (Pin.sample p).1 = b := by
  obtain ⟨draws, level⟩ := p
  cases draws with
  | nil => exact h.1
  | cons d rest => exact h.2 d (by simp)

theorem Pin.Always.sample_snd {p : Pin} {b : Bool} (h : p.Always b) : (Pin.sample p).2.Always b := by
  obtain ⟨draws, level⟩ := p
  cases draws with
  | nil => exact h
  | cons d rest => exact ⟨h.1, fun e he => h.2 e (by simp [Pin.sample] at he; simp [he])⟩

/-- One look at an input: its value then, and what is left of it. -/
theorem Pin.sample_eq (p : Pin) : Pin.sample p = (p.value 0, p.rest 1) := by
  obtain ⟨draws, level⟩ := p
  cases draws <;> rfl

@[simp] theorem Pin.rest_zero (p : Pin) : p.rest 0 = p := rfl

@[simp] theorem Pin.rest_rest (p : Pin) (m n : Nat) : (p.rest m).rest n = p.rest (m + n) := by
  simp [Pin.rest]

@[simp] theorem Pin.value_rest (p : Pin) (m n : Nat) : (p.rest m).value n = p.value (m + n) := by
  simp [Pin.rest, Pin.value]

/-! Responses. -/

theorem respond_eq (status : Status) (data : Word) (s : State) :
    respond status data s = .next (s.emit (.response ⟨status, data⟩)) := rfl

@[simp] theorem respond_eq_next {status : Status} {data : Word} {s t : State} :
    respond status data s = .next t ↔ s.emit (.response ⟨status, data⟩) = t := by
  simp [respond_eq]

@[simp] theorem respond_ne_fault {status : Status} {data : Word} {s : State} {f : Fault} :
    respond status data s ≠ .fault f := by simp [respond_eq]

/-- OutOfRange sets its bit and answers (OOR, 0) (60_exceptions.md R104). -/
theorem raiseOutOfRange_eq (s : State) :
    raiseOutOfRange s = .next ((s.setErr (s.err ||| 1#32)).emit (.response ⟨.oor, 0#32⟩)) := rfl

/-- Illegal sets its bit and answers (ILL, 0) (60_exceptions.md R105). -/
theorem raiseIllegal_eq (s : State) :
    raiseIllegal s = .next ((s.setErr (s.err ||| 2#32)).emit (.response ⟨.ill, 0#32⟩)) := rfl

@[simp] theorem frames_emit_response (s : State) (r : Response) :
    (s.emit (.response r)).frames = s.frames := by simp [State.frames, OutEvent.frame?]

@[simp] theorem frames_emit_frame (s : State) (f : FrameOut) :
    (s.emit (.frame f)).frames = s.frames ++ [f] := by simp [State.frames, OutEvent.frame?]

@[simp] theorem responses_emit_response (s : State) (r : Response) :
    (s.emit (.response r)).responses = s.responses ++ [r] := by simp [State.responses, OutEvent.response?]

@[simp] theorem responses_emit_frame (s : State) (f : FrameOut) :
    (s.emit (.frame f)).responses = s.responses := by simp [State.responses, OutEvent.response?]

/-! What an iteration adds to the output history: nothing, or one record (41_extractor.md R88). -/

theorem iterate_out {s s' : State} {o : IterOutcome} (h : iterate s = .ended o s') :
    s'.out = s.out ∨ ∃ f, s'.out = s.out ++ [.frame f] := by
  have hc := iterate_ended h
  cases hc <;> simp

theorem iterate_hung_out {s s' : State} (h : iterate s = .hung s') : s'.out = s.out := by
  have hc := iterate_hung h
  cases hc
  rfl

/-- `s` with other values of what no iteration reads or writes, and another output history. -/
def State.around (s : State) (cancel : Pin) (k : Option Nat) (lastOutcome : Word) (inputs : List HostInput)
    (out : List OutEvent) : State :=
  { s with cancel := cancel, runCount := k, lastOutcome := lastOutcome, inputs := inputs, out := out }

/-- An iteration depends on none of `cancel`, `k`, LAST_OUTCOME, the inputs and the output history: with other values
of them it ends the same way and adds the same records (41_extractor.md R76). -/
theorem iterate_around {s t : State} {o : IterOutcome} (h : iterate s = .ended o t) :
    ∃ fs : List FrameOut, t.out = s.out ++ fs.map .frame ∧
      ∀ c k l i out, iterate (s.around c k l i out) = .ended o (t.around c k l i (out ++ fs.map .frame)) := by
  have silent (hout : t.out = s.out)
      (hall : ∀ c k l i out, iterate (s.around c k l i out) = .ended o (t.around c k l i out)) :
      ∃ fs : List FrameOut, t.out = s.out ++ fs.map .frame ∧
        ∀ c k l i out, iterate (s.around c k l i out) = .ended o (t.around c k l i (out ++ fs.map .frame)) :=
    ⟨[], by simpa using hout, by simpa using hall⟩
  have complete (hf : Complete s) (c k l i out) :
      iterate (s.around c k l i out) = checkFrame (parseHeader s) (s.around c k l i out) :=
    iterate_of_complete (s := s.around c k l i out) ⟨hf.sync, hf.legal, hf.whole⟩
  have hc := iterate_ended h
  cases hc with
  | needData hc => exact silent rfl fun c k l i out => iterate_of_needData (s := s.around c k l i out) hc
  | noSync hc hn => exact silent rfl fun c k l i out => iterate_of_noSync (s := s.around c k l i out) hc hn
  | junk off h0 hs hl => exact silent rfl fun c k l i out => iterate_of_junk (s := s.around c k l i out) h0 hs hl
  | needHeader hs hc => exact silent rfl fun c k l i out => iterate_of_needHeader (s := s.around c k l i out) hs hc
  | badLength hs hc hp =>
    exact silent rfl fun c k l i out => iterate_of_badLength (s := s.around c k l i out) hs hc hp
  | needFrame hs hc hp hw =>
    exact silent rfl fun c k l i out => iterate_of_needFrame (s := s.around c k l i out) hs hc hp hw
  | badChecksum hf ht =>
    exact silent rfl fun c k l i out => (complete hf c k l i out).trans (if_neg (Bool.eq_false_iff.1 ht))
  | otherFrame hf ht hg =>
    exact silent rfl fun c k l i out =>
      (complete hf c k l i out).trans ((if_pos ht).trans (if_neg (Bool.eq_false_iff.1 hg)))
  | targetFrame hf ht hg hd =>
    exact ⟨[frameRecord (parseHeader s) s], by simp, fun c k l i out =>
      (complete hf c k l i out).trans ((if_pos ht).trans ((if_pos hg).trans (if_pos hd)))⟩

/-! The loop. -/

/-- Everything one turn of the loop can do. -/
inductive TurnCase (s : State) : RunProgress → Prop where
  | cancelled (hc : (Pin.sample s.cancel).1 = true) :
      TurnCase s (.ended .cancelled (s.setCancel (Pin.sample s.cancel).2))
  | stop (o : IterOutcome) (t : State) (hc : (Pin.sample s.cancel).1 = false)
      (hi : iterate (s.setCancel (Pin.sample s.cancel).2) = .ended o t) (ho : o.isStop = true) :
      TurnCase s (.ended (.stop o) (t.setRunCount (t.runCount.map (· + 1))))
  | goesOn (o : IterOutcome) (t : State) (hc : (Pin.sample s.cancel).1 = false)
      (hi : iterate (s.setCancel (Pin.sample s.cancel).2) = .ended o t) (ho : o.isStop = false) :
      TurnCase s (.goesOn (t.setRunCount (t.runCount.map (· + 1))))
  | hung (t : State) (hc : (Pin.sample s.cancel).1 = false)
      (hi : iterate (s.setCancel (Pin.sample s.cancel).2) = .hung t) : TurnCase s (.hung t)

theorem runTurn_case (s : State) : TurnCase s (runTurn s) := by
  unfold runTurn
  split
  · next hc => exact .cancelled hc
  next hc =>
    have hc : (Pin.sample s.cancel).1 = false := Bool.eq_false_iff.2 hc
    split
    · next o t hi =>
      split
      · next ho => exact .stop o t hc hi ho
      · next ho => exact .goesOn o t hc hi (Bool.eq_false_iff.2 ho)
    · next t hi => exact .hung t hc hi

/-- What holds at the start and is kept by a look at `cancel`, by counting and by every iteration holds of the state
a RUN's loop reaches, however it stands. -/
theorem runTurns_keeps (P : State → Prop)
    (hcancel : ∀ s p, P s → P (s.setCancel p)) (hcount : ∀ s k, P s → P (s.setRunCount k))
    (hended : ∀ s o t, P s → iterate s = .ended o t → P t)
    (hhung : ∀ s t, P s → iterate s = .hung t → P t)
    (n : Nat) (s : State) (h : P s) : P (runTurns n s).state := by
  induction n generalizing s with
  | zero => exact h
  | succ n ih =>
    unfold runTurns
    have hs := hcancel s (Pin.sample s.cancel).2 h
    have hc := runTurn_case s
    generalize runTurn s = r at hc
    cases hc with
    | cancelled => exact hs
    | stop o t _ hi _ => exact hcount _ _ (hended _ _ _ hs hi)
    | goesOn o t _ hi _ => exact ih _ (hcount _ _ (hended _ _ _ hs hi))
    | hung t _ hi => exact hhung _ _ hs hi

/-- The end of a RUN, whichever way its loop ended (41_extractor.md R95). -/
theorem execRun_next {s t : State} (h : execRun s = .next t) :
    ∃ r u, finishRun r u = .next t ∧
      (runLoop s = .ended r u ∨ ∃ v, runLoop s = .goesOn v ∧ (r, u) = capBoundary v) := by
  unfold execRun at h
  split at h
  · next r s' hr => exact ⟨r, s', h, .inl hr⟩
  · next s' hr => exact ⟨_, _, h, .inr ⟨s', hr, rfl⟩⟩
  · cases h

theorem finishRun_eq (r : RunReason) (s : State) :
    finishRun r s = .next (((s.setLastOutcome (outcomeWord r.code)).setRunCount none).emit
      (.response ⟨.ok, packRun (s.runCount.getD 0) r.code⟩)) := rfl

/-- At the boundary at the cap: CANCELLED and nothing else, or CAP_EXCEEDED and an empty buffer (R95, R106). -/
theorem capBoundary_cases (s : State) :
    ((Pin.sample s.cancel).1 = true ∧
      capBoundary s = (.cancelled, s.setCancel (Pin.sample s.cancel).2)) ∨
    ((Pin.sample s.cancel).1 = false ∧
      capBoundary s = (.capExceeded, clearBuffer (s.setCancel (Pin.sample s.cancel).2))) := by
  unfold capBoundary
  split
  · next h => exact .inl ⟨h, rfl⟩
  · next h => exact .inr ⟨Bool.eq_false_iff.2 h, rfl⟩

/-- What holds at the start and is kept by a look at `cancel`, by counting and by every iteration that ends holds of
the state the loop of a RUN that does not hang reaches. -/
theorem runTurns_frame (P : State → Prop)
    (hcancel : ∀ s p, P s → P (s.setCancel p)) (hcount : ∀ s k, P s → P (s.setRunCount k))
    (hended : ∀ s o t, P s → iterate s = .ended o t → P t) (n : Nat) (s : State) (h : P s) :
    (∀ r t, runTurns n s = .ended r t → P t) ∧ (∀ t, runTurns n s = .goesOn t → P t) := by
  induction n generalizing s with
  | zero => simp [runTurns, h]
  | succ n ih =>
    unfold runTurns
    have hs := hcancel s (Pin.sample s.cancel).2 h
    have hc := runTurn_case s
    generalize runTurn s = r at hc
    cases hc with
    | cancelled => simp [hs]
    | stop o t _ hi _ => simpa using hcount _ _ (hended _ _ _ hs hi)
    | goesOn o t _ hi _ => exact ih _ (hcount _ _ (hended _ _ _ hs hi))
    | hung t _ hi => simp

/-- The same for the state a RUN ends its loop in, the cap's clearing of the buffer included. -/
theorem execRun_frame (P : State → Prop)
    (hcancel : ∀ s p, P s → P (s.setCancel p)) (hcount : ∀ s k, P s → P (s.setRunCount k))
    (hended : ∀ s o t, P s → iterate s = .ended o t → P t) (hclear : ∀ s, P s → P (clearBuffer s))
    {s t : State} (h : P s) (he : execRun s = .next t) : ∃ r u, finishRun r u = .next t ∧ P u := by
  obtain ⟨r, u, hf, hu⟩ := execRun_next he
  refine ⟨r, u, hf, ?_⟩
  have hloop := runTurns_frame P hcancel hcount hended s.params.iterCap _ (hcount s (some 0) h)
  rcases hu with hu | ⟨v, hv, hb⟩
  · exact hloop.1 _ _ hu
  · have hv := hloop.2 _ hv
    rcases capBoundary_cases v with ⟨-, hc⟩ | ⟨-, hc⟩ <;> rw [hc] at hb <;> cases hb
    · exact hcancel _ _ hv
    · exact hclear _ (hcancel _ _ hv)

/-! The words of a RUN as numbers. -/

/-- The RUN response: `k` over the reason (30_encoding.md R59). -/
theorem packRun_eq_ofNat (k : Nat) (c : BitVec 4) :
    packRun k c = BitVec.ofNat 32 (2 ^ 16 * k + c.toNat) := by
  apply BitVec.eq_of_toNat_eq
  have := c.isLt
  unfold packRun
  simp only [BitVec.toNat_append, BitVec.toNat_ofNat]
  rw [← Nat.shiftLeft_add_eq_or_of_lt (by omega)]
  simp [Nat.shiftLeft_eq]
  omega

theorem outcomeWord_eq_ofNat (c : BitVec 4) : outcomeWord c = BitVec.ofNat 32 c.toNat := by
  apply BitVec.eq_of_toNat_eq
  simp [outcomeWord]

end Sys2Proof.Machine
end

