-- ==== Sys2Proof/Laws/Invariant.lean ====
section
/-! SUPPORT. The invariant of a running FX through the shared operations. -/

namespace Sys2Proof.Machine

/-- The invariant reads only these fields. -/
theorem State.Inv.congr {s t : State} (h : s.Inv) (hp : t.params = s.params) (hb : t.buf = s.buf)
    (hs : t.start < t.params.capacity) (hc : t.count ≤ t.params.capacity)
    (ho : legalOutcome t.lastOutcome = true) (hk : t.ck.extractLsb' 16 16 = 0#16)
    (he : t.err.extractLsb' 2 30 = 0#30) (hr : t.runCount = none) : t.Inv where
  params := hp ▸ h.params
  start := hs
  count := hc
  canonical := hb ▸ h.canonical
  listed := by rw [hb, hp]; exact h.listed
  outcome := ho
  ckReserved := hk
  errReserved := he
  idle := hr

theorem State.Inv.capacity_pos {s : State} (h : s.Inv) : 0 < s.params.capacity := by
  have := h.params.1
  omega

/-- An event leaves the invariant alone. -/
theorem State.Inv.emit {s : State} (h : s.Inv) (e : OutEvent) : (s.emit e).Inv :=
  h.congr rfl rfl h.start h.count h.outcome h.ckReserved h.errReserved h.idle

theorem State.Inv.setInputs {s : State} (h : s.Inv) (l : List HostInput) : (s.setInputs l).Inv :=
  h.congr rfl rfl h.start h.count h.outcome h.ckReserved h.errReserved h.idle

theorem State.Inv.consumeBytes {s : State} (h : s.Inv) (n : Nat) : (consumeBytes n s).Inv :=
  h.congr rfl rfl (Nat.mod_lt _ h.capacity_pos)
    (Nat.le_trans (Nat.sub_le _ _) h.count) h.outcome h.ckReserved h.errReserved h.idle

theorem State.Inv.clearBuffer {s : State} (h : s.Inv) : (clearBuffer s).Inv :=
  h.congr rfl rfl h.capacity_pos (Nat.zero_le _) h.outcome h.ckReserved h.errReserved h.idle

theorem State.Inv.appendByte {s : State} (h : s.Inv) (b : Byte) : (appendByte b s).Inv where
  params := by simpa using h.params
  start := by simpa using makeRoom_start_lt h.start
  count := by
    rw [appendByte_count_eq b h.capacity_pos h.count, appendByte_params]
    exact Nat.min_le_right _ _
  canonical := by simpa using Memory.wf_write _ _ h.canonical
  listed := by
    have hlt : appendAddress s < s.params.capacity := by
      simpa [appendAddress] using physical_lt (s := makeRoom s) (by simpa using h.capacity_pos) _
    simpa using Memory.below_write b hlt h.listed
  outcome := by simpa using h.outcome
  ckReserved := by simpa using h.ckReserved
  errReserved := by simpa using h.errReserved
  idle := by simpa using h.idle

/-- The error bits lie in ERR's bits 0 and 1 (10_state.md R26). -/
theorem errWithOor_reserved {w : Word} (h : w.extractLsb' 2 30 = 0#30) :
    (errWithOor w).extractLsb' 2 30 = 0#30 := by
  unfold errWithOor
  rw [BitVec.extractLsb'_or, h]
  decide

theorem errWithIll_reserved {w : Word} (h : w.extractLsb' 2 30 = 0#30) :
    (errWithIll w).extractLsb' 2 30 = 0#30 := by
  unfold errWithIll
  rw [BitVec.extractLsb'_or, h]
  decide

theorem State.Inv.raiseOutOfRange {s t : State} (h : s.Inv) (ht : raiseOutOfRange s = .next t) : t.Inv := by
  rw [raiseOutOfRange_eq] at ht
  cases ht
  exact State.Inv.emit (h.congr (t := s.setErr (s.err ||| 1#32)) rfl rfl h.start h.count h.outcome h.ckReserved
    (errWithOor_reserved h.errReserved) h.idle) _

theorem State.Inv.raiseIllegal {s t : State} (h : s.Inv) (ht : raiseIllegal s = .next t) : t.Inv := by
  rw [raiseIllegal_eq] at ht
  cases ht
  exact State.Inv.emit (h.congr (t := s.setErr (s.err ||| 2#32)) rfl rfl h.start h.count h.outcome h.ckReserved
    (errWithIll_reserved h.errReserved) h.idle) _

/-- The outcome codes are legal LAST_OUTCOME values (10_state.md R23). -/
theorem legalOutcome_iter (o : IterOutcome) : legalOutcome (outcomeWord o.code) = true := by
  cases o <;> decide

theorem legalOutcome_run (r : RunReason) : legalOutcome (outcomeWord r.code) = true := by
  cases r with
  | stop o => exact legalOutcome_iter o
  | capExceeded => decide
  | cancelled => decide

end Sys2Proof.Machine
end

