-- ==== Sys2Proof/Laws/PerInstr.lean ====
section
/-! SUPPORT. Statements made per instruction: the word of a command matches its row of spec/opcode_table.json
(30_encoding.md R54). -/

namespace Sys2Proof.Laws.RowMatch

/-- The command's word agrees with its row's "match" under the row's "mask". -/
def Statement (i : Instr) : Prop := encode i &&& (tableRow i).2 = (tableRow i).1

/-- A word with 28 bits of operand under the mask of format Z. -/
theorem maskZ (op : BitVec 4) : (op ++ 0#28 : Word) &&& 0xFFFFFFFF#32 = op ++ 0#28 := by
  rw [show 0xFFFFFFFF#32 = BitVec.allOnes 32 from rfl, BitVec.and_allOnes]

/-- A word with a byte operand under the mask of format B. -/
theorem maskB (op : BitVec 4) (x : Byte) : (op ++ 0#20 ++ x : Word) &&& 0xFFFFFF00#32 = op ++ 0#20 ++ 0#8 := by
  rw [show 0xFFFFFF00#32 = (0xF#4 ++ 0xFFFFF#20 ++ 0#8 : Word) from rfl, BitVec.and_append,
    BitVec.and_append, show op &&& 0xF#4 = op from BitVec.and_allOnes, BitVec.and_zero]
  rfl

/-- A word with a 16-bit operand under the mask of format H. -/
theorem maskH (op : BitVec 4) (x : Half) : (op ++ 0#12 ++ x : Word) &&& 0xFFFF0000#32 = op ++ 0#12 ++ 0#16 := by
  rw [show 0xFFFF0000#32 = (0xF#4 ++ 0xFFF#12 ++ 0#16 : Word) from rfl, BitVec.and_append,
    BitVec.and_append, show op &&& 0xF#4 = op from BitVec.and_allOnes, BitVec.and_zero]
  rfl

/-- A word with a register index under the mask of format R. -/
theorem maskR (op : BitVec 4) (x : BitVec 4) : (op ++ 0#24 ++ x : Word) &&& 0xFFFFFFF0#32 = op ++ 0#24 ++ 0#4 := by
  rw [show 0xFFFFFFF0#32 = (0xF#4 ++ 0xFFFFFF#24 ++ 0#4 : Word) from rfl, BitVec.and_append,
    BitVec.and_append, show op &&& 0xF#4 = op from BitVec.and_allOnes, BitVec.and_zero]
  rfl

theorem nop : Statement .nop := maskZ 0x0#4
theorem append (imm8 : Byte) : Statement (.append imm8) := maskB 0x1#4 imm8
theorem peek (imm16 : Half) : Statement (.peek imm16) := maskH 0x2#4 imm16
theorem consume (imm16 : Half) : Statement (.consume imm16) := maskH 0x3#4 imm16
theorem findsync : Statement .findsync := maskZ 0x4#4
theorem clear : Statement .clear := maskZ 0x5#4
theorem step : Statement .step := maskZ 0x6#4
theorem run : Statement .run := maskZ 0x7#4
theorem ckrst : Statement .ckrst := maskZ 0x8#4
theorem ckfeed (imm8 : Byte) : Statement (.ckfeed imm8) := maskB 0x9#4 imm8
theorem rdreg (ridx : BitVec 4) : Statement (.rdreg ridx) := maskR 0xA#4 ridx

end Sys2Proof.Laws.RowMatch
end

