-- ==== Sys2Proof/Laws/Steps.lean ====
section
/-! SUPPORT. Runs of several steps, one step at a time, and what a step takes from the host. -/

namespace Sys2Proof.Machine

@[simp] theorem runs_zero (s : State) : runs 0 s = .next s := rfl

/-- A run goes on from the state its first step answers. -/
theorem runs_succ_of_next {s t : State} (n : Nat) (h : step s = .next t) : runs (n + 1) s = runs n t := by
  rw [runs, h]

theorem runs_succ_of_fault {s : State} {f : Fault} (n : Nat) (h : step s = .fault f) :
    runs (n + 1) s = .fault f := by
  rw [runs, h]

theorem runs_succ_of_refused {s : State} {r : Refusal} (n : Nat) (h : step s = .refused r) :
    runs (n + 1) s = .refused r := by
  rw [runs, h]

/-- A run is the host's run of the machine. -/
theorem runs_eq_core_run (n : Nat) (s : State) : runs n s = Host.Core.run Sys2Proof.core n s := by
  induction n generalizing s with
  | zero => rfl
  | succ n ih =>
    simp only [runs, Host.Core.run]
    have hs : Sys2Proof.core.step s = step s := rfl
    cases h : step s with
    | next t => rw [h] at hs; simp only [hs, ih]; rfl
    | fault f => rw [h] at hs; simp only [hs]; rfl
    | refused r => rw [h] at hs; simp only [hs]; rfl

/-- A run of `n + 1` steps that goes through is a step and a run of `n`. -/
theorem runs_succ_eq_next {s u : State} {n : Nat} :
    runs (n + 1) s = .next u ↔ ∃ t, step s = .next t ∧ runs n t = .next u := by
  constructor
  · intro h
    cases hs : step s with
    | next t => exact ⟨t, rfl, by rw [← h, runs_succ_of_next n hs]⟩
    | fault f => rw [runs_succ_of_fault n hs] at h; cases h
    | refused r => rw [runs_succ_of_refused n hs] at h; cases h
  · rintro ⟨t, hs, h⟩
    rw [runs_succ_of_next n hs, h]

/-- A run of `m + n` steps is a run of `m` and then one of `n`. -/
theorem runs_add {s t : State} {m : Nat} (n : Nat) (h : runs m s = .next t) :
    runs (m + n) s = runs n t := by
  induction m generalizing s with
  | zero => cases h; rw [Nat.zero_add]
  | succ m ih =>
    obtain ⟨u, hs, hu⟩ := runs_succ_eq_next.1 h
    rw [Nat.add_right_comm, runs_succ_of_next _ hs, ih hu]

/-! The host's lists of commands. -/

@[simp] theorem issue_nil : issue [] = [] := rfl

@[simp] theorem issue_cons (i : Instr) (is : List Instr) :
    issue (i :: is) = .command (encode i) :: issue is := rfl

@[simp] theorem issue_append (is js : List Instr) : issue (is ++ js) = issue is ++ issue js := by
  simp [issue]

@[simp] theorem issue_length (is : List Instr) : (issue is).length = is.length := by simp [issue]

/-! What one step is, by the host's next input (30_encoding.md R50, R56). -/

theorem step_idle {s : State} (h : s.inputs = []) : step s = .next s := by
  unfold step takeInput; rw [h]

theorem step_legal {s : State} {w : Word} {rest : List HostInput} {i : Instr}
    (h : s.inputs = .command w :: rest) (hd : decode w = .ok i) : step s = exec i (s.setInputs rest) := by
  unfold step takeInput; rw [h]; simp only [hd]

theorem step_illegal {s : State} {w : Word} {rest : List HostInput} {e : DecodeReject}
    (h : s.inputs = .command w :: rest) (hd : decode w = .error e) :
    step s = raiseIllegal (s.setInputs rest) := by
  unfold step takeInput; rw [h]; simp only [hd]

theorem step_reset {s : State} {rest : List HostInput} (h : s.inputs = .reset :: rest) :
    step s = .next (afterReset (s.setInputs rest)) := by
  unfold step takeInput; rw [h]

theorem step_interrupted {s : State} {w : Word} {done : Nat} {rest : List HostInput}
    (h : s.inputs = .interrupted w done :: rest) :
    step s = .next (abandon w done (s.setInputs rest)) := by
  unfold step takeInput; rw [h]

/-! How fast the buffer fills: one byte for each input at most (40_ringbuffer.md R66). -/

/-- A command adds at most one byte, and leaves the build parameters and the inputs alone. -/
theorem exec_fill {i : Instr} {s t : State} (h : exec i s = .next t) :
    t.params = s.params ∧ t.inputs = s.inputs ∧ t.count ≤ s.count + 1 := by
  cases i with
  | append b =>
    cases h
    refine ⟨by simp, by simp, ?_⟩
    simp only [State.emit_count, appendByte, State.setBuffer_count, makeRoom]
    split
    · simp only [evictOldest, State.setBuffer_count]; omega
    · exact Nat.le_refl _
  | peek n =>
    simp only [exec, execPeek] at h
    split at h
    · cases h; exact ⟨rfl, rfl, Nat.le_succ _⟩
    · cases h; exact ⟨rfl, rfl, Nat.le_succ _⟩
  | consume n => cases h; exact ⟨rfl, rfl, Nat.le_succ_of_le (Nat.sub_le _ _)⟩
  | clear => cases h; exact ⟨rfl, rfl, Nat.zero_le _⟩
  | step =>
    simp only [exec, execStep] at h
    split at h
    next o u hi =>
      cases h
      have hf := iterate_frame hi
      exact ⟨hf.params, hf.inputs, Nat.le_succ_of_le hf.count⟩
    next => cases h
  | run =>
    obtain ⟨r, u, hf, h1, h2, h3⟩ := execRun_frame
      (fun u => u.params = s.params ∧ u.inputs = s.inputs ∧ u.count ≤ s.count)
      (fun _ _ h => h) (fun _ _ h => h)
      (fun _ _ _ h hi => ⟨(iterate_frame hi).params.trans h.1, (iterate_frame hi).inputs.trans h.2.1,
        Nat.le_trans (iterate_frame hi).count h.2.2⟩)
      (fun _ h => ⟨h.1, h.2.1, Nat.zero_le _⟩) ⟨rfl, rfl, Nat.le_refl _⟩ (show execRun s = .next t from h)
    rw [finishRun_eq] at hf
    cases hf
    exact ⟨h1, h2, Nat.le_succ_of_le h3⟩
  | rdreg r =>
    simp only [exec, execRdreg] at h
    split at h
    · cases h; exact ⟨rfl, rfl, Nat.le_succ _⟩
    · cases h; exact ⟨rfl, rfl, Nat.le_succ _⟩
  | _ => cases h; exact ⟨rfl, rfl, Nat.le_succ _⟩

/-- A host that issues commands only never fills the buffer past what it held and the commands still to come. -/
theorem runs_fill (n : Nat) (is : List Instr) (s t : State) (hw : ∀ i ∈ is, decode (encode i) = .ok i)
    (hs : s.inputs = issue is) (h : runs n s = .next t) :
    t.params = s.params ∧ t.count + t.inputs.length ≤ s.count + is.length := by
  induction n generalizing is s with
  | zero => cases h; exact ⟨rfl, by rw [hs, issue_length]⟩
  | succ n ih =>
    obtain ⟨u, hu, ht⟩ := runs_succ_eq_next.1 h
    cases is with
    | nil => rw [step_idle hs] at hu; cases hu; exact ih [] s hw hs ht
    | cons i is =>
      rw [step_legal hs (hw i (by simp))] at hu
      obtain ⟨hp, hi, hc⟩ := exec_fill hu
      obtain ⟨hp', hc'⟩ := ih is u (fun j hj => hw j (by simp [hj])) hi ht
      refine ⟨by simpa [hp] using hp', ?_⟩
      simp only [State.setInputs_count, List.length_cons] at *
      omega

end Sys2Proof.Machine
end

