-- ==== Sys2Proof/Tests/Slice0.lean ====
section
/-! SUPPORT. The model's own tests: the well-formedness smoke test, words decoded as 30_encoding.md writes them, one
step at a time of the vectors of 95_test_vectors.md, and a witness for the hypotheses of every obligation that has
some. -/

namespace Sys2Proof.Tests

open Sys2Proof.Machine

/-! ## Small states -/

/-- The cells of bytes from a physical index on. -/
def cells : Nat → List Byte → Memory
  | _, [] => []
  | p, b :: bs => Memory.cons p b (cells (p + 1) bs)

/-- The reset state with a window from physical 0. -/
def loaded (bytes : List Byte) : State :=
  { State.reset with buf := cells 0 bytes, count := bytes.length }

/-- A small built FX: 8 bytes of buffer, no payload, three iterations to a RUN (00_scope.md R7 at its bounds). -/
def tiny (bytes : List Byte) : State :=
  { loaded bytes with params := { capacity := 8, maxPayload := 0, iterCap := 3 } }

/-- The state with a word next on the command port. -/
def offered (s : State) (w : Word) : State := s.withFetchWord 32 w.toNat

/-- What a step answers, read: the last response and a value of the next state. -/
def answer {α : Type} (read : State → α) : Host.Outcome State Fault Refusal → Option (Option Response × α)
  | .next t => some (t.responses.getLast?, read t)
  | .fault _ => none
  | .refused _ => none

/-- The valid frame ZL of 95_test_vectors.md. -/
def frameZl : List Byte := [0xB5#8, 0x62#8, 0x0A#8, 0x04#8, 0x00#8, 0x00#8, 0x0E#8, 0x34#8]

/-- The valid frame ACK of 95_test_vectors.md. -/
def frameAck : List Byte := [0xB5#8, 0x62#8, 0x05#8, 0x01#8, 0x02#8, 0x00#8, 0x01#8, 0x07#8, 0x10#8, 0x34#8]

/-- A target frame: its payload is 92 zeros. -/
def frameTarget : List Byte := validFrame 0x01#8 0x07#8 (List.replicate 92 0#8)

/-! ## Well-formedness and decoding -/

/-- RDREG of a reserved index is no command (30_encoding.md R55). -/
theorem test_wellFormed_refuses_rdreg_10 : Instr.wellFormed (.rdreg 10#4) = false := by decide

theorem test_wellFormed_refuses_rdreg_15 : Instr.wellFormed (.rdreg 15#4) = false := by decide

/-- The table's words with operands written out by hand (30_encoding.md R54). -/
theorem test_decode_nop : decode 0b00000000000000000000000000000000#32 = .ok .nop := by decide
theorem test_decode_append : decode 0b00010000000000000000000010110101#32 = .ok (.append 0xB5#8) := by decide
theorem test_decode_peek : decode 0b00100000000000001000000000000001#32 = .ok (.peek 0x8001#16) := by decide
theorem test_decode_consume : decode 0b00110000000000000001111111111110#32 = .ok (.consume 0x1FFE#16) := by decide
theorem test_decode_findsync : decode 0b01000000000000000000000000000000#32 = .ok .findsync := by decide
theorem test_decode_clear : decode 0b01010000000000000000000000000000#32 = .ok .clear := by decide
theorem test_decode_step : decode 0b01100000000000000000000000000000#32 = .ok .step := by decide
theorem test_decode_run : decode 0b01110000000000000000000000000000#32 = .ok .run := by decide
theorem test_decode_ckrst : decode 0b10000000000000000000000000000000#32 = .ok .ckrst := by decide
theorem test_decode_ckfeed : decode 0b10010000000000000000000000000111#32 = .ok (.ckfeed 0x07#8) := by decide
theorem test_decode_rdreg : decode 0b10100000000000000000000000000110#32 = .ok (.rdreg 6#4) := by decide

/-- 95_test_vectors.md L2.5, IL1 to IL7. -/
theorem test_illegal_words :
    [0xB0000000#32, 0xF0000000#32, 0x10000100#32, 0x00000001#32, 0x20010000#32, 0xA000000A#32,
      0x70000010#32].map (fun w => (decode w).toOption) = [none, none, none, none, none, none, none] := by decide

/-- A row of the table without its operand bits reads as operand 0. -/
theorem test_decodeTableWord : decodeTableWord 32 0x30000000 = some (.consume 0#16) := by decide

/-- The words of 30_encoding.md R60 from their text. -/
theorem test_assemble :
    Assembler.assemble ["APPEND 0xB5 ; sync".toList, "RDREG ERR".toList, "drain".toList.map Char.toUpper] =
      some [0x100000B5#32, 0xA0000006#32, 0x3000FFFF#32] := by decide

/-! ## One step of each command (95_test_vectors.md) -/

/-- B19. -/
theorem test_nop : answer State.count (step (offered (loaded [0x11#8]) 0x00000000#32)) =
    some (some ⟨.ok, 0#32⟩, 1) := by decide

/-- B13. -/
theorem test_append : answer window (step (offered (loaded [0xB5#8]) 0x10000062#32)) =
    some (some ⟨.ok, 0#32⟩, [0xB5#8, 0x62#8]) := by decide

/-- B14's eviction, in a buffer of 8 bytes (40_ringbuffer.md R62). -/
theorem test_append_evicts : answer window
    (step (offered (tiny [0#8, 1#8, 2#8, 3#8, 4#8, 5#8, 6#8, 7#8]) 0x100000AA#32)) =
      some (some ⟨.ok, 0#32⟩, [1#8, 2#8, 3#8, 4#8, 5#8, 6#8, 7#8, 0xAA#8]) := by decide

/-- B5. -/
theorem test_peek_newest : answer State.err (step (offered (loaded [0#8, 0xB5#8, 0x62#8]) 0x20000002#32)) =
    some (some ⟨.ok, 0x62#32⟩, 0#32) := by decide

/-- B6. -/
theorem test_peek_past_the_end : answer State.err (step (offered (loaded [0#8, 0xB5#8, 0x62#8]) 0x20000003#32)) =
    some (some ⟨.oor, 0#32⟩, 1#32) := by decide

/-- B9. -/
theorem test_consume_one : answer window (step (offered (loaded [0#8, 0xB5#8, 0x62#8]) 0x30000001#32)) =
    some (some ⟨.ok, 1#32⟩, [0xB5#8, 0x62#8]) := by decide

/-- B10. -/
theorem test_consume_past_the_end : answer window (step (offered (loaded [0xB5#8, 0x62#8]) 0x30000009#32)) =
    some (some ⟨.ok, 2#32⟩, []) := by decide

/-- FS5. -/
theorem test_findsync_second : answer State.count
    (step (offered (loaded [0xB5#8, 0xB5#8, 0x62#8]) 0x40000000#32)) = some (some ⟨.ok, 1#32⟩, 3) := by decide

/-- FS7. -/
theorem test_findsync_half : answer State.count
    (step (offered (loaded [1#8, 2#8, 0xB5#8]) 0x40000000#32)) = some (some ⟨.ok, 0xFFFFFFFF#32⟩, 3) := by decide

/-- B12. -/
theorem test_clear : answer window (step (offered (loaded [0#8, 0xB5#8, 0x62#8]) 0x50000000#32)) =
    some (some ⟨.ok, 0#32⟩, []) := by decide

/-- S10. -/
theorem test_step_badChecksum : answer (fun t => (window t, t.ck))
    (step (offered (loaded [0xB5#8, 0x62#8, 0x0A#8, 0x04#8, 0x00#8, 0x00#8, 0x0E#8, 0x35#8]) 0x60000000#32)) =
      some (some ⟨.ok, 6#32⟩, [0x0A#8, 0x04#8, 0x00#8, 0x00#8, 0x0E#8, 0x35#8], 0x340E#32) := by decide

/-- S14. -/
theorem test_step_frameOk : answer (fun t => (t.count, t.validCount, t.lastFrame, t.ck, t.frames.length))
    (step (offered (loaded frameAck) 0x60000000#32)) =
      some (some ⟨.ok, 7#32⟩, 0, 1#32, 0x00020105#32, 0x3410#32, 0) := by decide

/-- U5: a frame hidden in a false candidate. -/
theorem test_run_resynchronizes : answer (fun t => (t.count, t.validCount, t.ck))
    (step (offered (loaded ([0xB5#8, 0x62#8, 0x01#8, 0x02#8, 0x08#8, 0x00#8] ++ frameAck)) 0x70000000#32)) =
      some (some ⟨.ok, 0x00040000#32⟩, 0, 1#32, 0x3410#32) := by decide

/-- U7: `cancel` rises between the first iteration and the second. -/
theorem test_run_cancelled : answer (fun t => (t.count, t.validCount, t.ck))
    (step (offered { loaded ([0xB5#8, 0x62#8, 0x01#8, 0x02#8, 0x08#8, 0x00#8] ++ frameAck) with
      cancel := { draws := [false], level := true } } 0x70000000#32)) =
      some (some ⟨.ok, 0x00010009#32⟩, 14, 0#32, 0xFC32#32) := by decide

/-- CK1. -/
theorem test_ckrst : answer State.ck (step (offered { loaded [] with ck := 0x3410#32 } 0x80000000#32)) =
    some (some ⟨.ok, 0#32⟩, 0#32) := by decide

/-- CK8: both sums wrap. -/
theorem test_ckfeed_wraps : answer State.ck (step (offered { loaded [] with ck := 0x00FF#32 } 0x900000FF#32)) =
    some (some ⟨.ok, 0xFEFE#32⟩, 0xFEFE#32) := by decide

/-- B1. -/
theorem test_rdreg_target : answer State.err (step (offered State.reset 0xA0000009#32)) =
    some (some ⟨.ok, 0x005C0701#32⟩, 0#32) := by decide

/-- B2. -/
theorem test_rdreg_10 : answer State.err (step (offered State.reset 0xA000000A#32)) =
    some (some ⟨.ill, 0#32⟩, 2#32) := by decide

/-! ## Witnesses: a state and operands that meet the hypotheses of each obligation that has some -/

theorem witness_DecodeOfEncodeIsTheInstruction : Instr.wellFormed (.rdreg 9#4) = true := by decide

theorem witness_DecodedWordIsTheEncodingOfItsCommand : decode 0xA0000009#32 = .ok (.rdreg 9#4) := by decide

theorem witness_EveryWordIsOneCommandOrIllegal :
    IllegalWord 0xB0000000#32 ∧ IllegalWord 0xA000000A#32 ∧ IllegalWord 0xA0000010#32 ∧ IllegalWord 0x00000001#32 ∧
    IllegalWord 0x10000100#32 ∧ IllegalWord 0x20010000#32 ∧ ¬ IllegalWord 0xA0000009#32 ∧
    ¬ IllegalWord 0x2000FFFF#32 ∧ ¬ IllegalWord 0x900000FF#32 ∧ ¬ IllegalWord 0x80000000#32 := by
  refine ⟨?_, ?_, ?_, ?_, ?_, ?_, ?_, ?_, ?_, ?_⟩ <;> unfold IllegalWord <;> decide

theorem witness_ByteLinkCarriesLeastSignificantByteFirst :
    decode (wordOfBytes 0xB5#8 0x00#8 0x00#8 0x10#8) = .ok (.append 0xB5#8) := by decide

theorem witness_AssemblerRefusesImmediatesOutOfRange :
    Assembler.readNumber "255".toList = some 255 ∧ Assembler.readNumber "0x100".toList = some 256 ∧
    Assembler.readNumber "0xFFFF".toList = some 65535 ∧ Assembler.readNumber "65536".toList = some 65536 ∧
    Assembler.readNumber "9".toList = some 9 ∧ Assembler.readNumber "10".toList = some 10 ∧
    "256".toList ∈ ["1".toList, "256".toList] ∧ Assembler.readNumber "256".toList = some 256 ∧
    ["0".toList, "255".toList].map Assembler.readNumber = [0, 255].map some ∧ (∀ n ∈ [0, 255], n < 256) := by decide

/-- The invariant of a small state. -/
theorem inv_loaded : (loaded [0#8, 0xB5#8, 0x62#8]).Inv := by constructor <;> decide

theorem witness_PseudoCommandsExpandAndDrainEmpties :
    ((loaded [0#8, 0xB5#8, 0x62#8]).setInputs (issue Assembler.Line.drain.expand)).Inv ∧
    ((loaded [0#8, 0xB5#8, 0x62#8]).setInputs (issue Assembler.Line.drain.expand)).inputs =
      issue Assembler.Line.drain.expand := ⟨inv_loaded.setInputs _, rfl⟩

theorem witness_StepRunsTheDecodedCommand :
    (offered State.reset 0x60000000#32).inputs = .command 0x60000000#32 :: [] ∧ decode 0x60000000#32 = .ok .step := by
  decide

theorem witness_OfferedCommandRunsNext : Instr.wellFormed (.rdreg 0#4) = true := by decide

theorem witness_IllegalWordSetsOnlyErrIll :
    (offered State.reset 0xF0000000#32).inputs = .command 0xF0000000#32 :: [] ∧ IllegalWord 0xF0000000#32 := by
  unfold IllegalWord
  decide

theorem witness_IdleKeepsAllState : State.reset.inputs = [] := rfl

theorem witness_ResetPutsEveryStateAtItsResetValue : ((loaded frameAck).setInputs [.reset]).inputs = .reset :: [] := rfl

/-- Each clause: a RUN and a STEP after one iteration, a STEP before it, and a NOP. -/
theorem witness_CommandCutShortByResetGetsNoResponse :
    (((loaded frameAck).setInputs [.interrupted 0x70000000#32 1]).inputs = .interrupted 0x70000000#32 1 :: [] ∧
      decode 0x70000000#32 = .ok .run) ∧
    (((loaded frameAck).setInputs [.interrupted 0x60000000#32 1]).inputs = .interrupted 0x60000000#32 1 :: [] ∧
      decode 0x60000000#32 = .ok .step ∧ 0 < 1) ∧
    (((loaded frameAck).setInputs [.interrupted 0x60000000#32 0]).inputs = .interrupted 0x60000000#32 0 :: [] ∧
      decode 0x60000000#32 ≠ .ok .run) ∧
    ((loaded frameAck).setInputs [.interrupted 0x00000000#32 1]).inputs = .interrupted 0x00000000#32 1 :: [] ∧
    decode 0x00000000#32 ≠ .ok .step ∧ decode 0x00000000#32 ≠ .ok .run := by decide

theorem witness_EveryStepKeepsTheInvariant : State.reset.Inv ∧ ∃ t, step State.reset = .next t :=
  ⟨by constructor <;> decide, _, rfl⟩

/-- Two states no command tells apart, `start` and a byte outside the window apart. -/
theorem witness_HiddenStateChangesNoResult :
    State.reset.Inv ∧ ({ State.reset with start := 5, buf := [(7, 0x11#8)] } : State).Inv ∧
    SameView State.reset { State.reset with start := 5, buf := [(7, 0x11#8)] } :=
  ⟨by constructor <;> decide, by constructor <;> decide, by constructor <;> decide⟩

theorem witness_EveryCommandGetsOneResponseAfterItsRecords :
    (offered State.reset 0x50000000#32).inputs = .command 0x50000000#32 :: [] ∧
    ∃ t, step (offered State.reset 0x50000000#32) = .next t := ⟨by decide, _, rfl⟩

theorem witness_OnlyPeekPastTheWindowFails :
    Instr.wellFormed (.peek 2#16) = true ∧ (2#16 : Half).toNat < (loaded [0#8, 0xB5#8, 0x62#8]).count ∧
    ∃ t, exec (.peek 2#16) (loaded [0#8, 0xB5#8, 0x62#8]) = .next t := ⟨by decide, by decide, _, rfl⟩

theorem downstreamTakes_reset : State.reset.DownstreamTakes := ⟨rfl, by simp [State.reset]⟩

theorem downstreamTakes_loaded (l : List Byte) : (loaded l).DownstreamTakes := downstreamTakes_reset

theorem witness_EveryCommandCompletesWhenRecordsAreTaken : (loaded frameAck).DownstreamTakes :=
  downstreamTakes_loaded _

theorem witness_EachStateIsWrittenOnlyByItsCommands :
    (∃ t, exec .ckrst (loaded frameAck) = .next t) ∧ (∃ t, exec .nop (loaded frameAck) = .next t) ∧
    (∃ t, exec .run (loaded frameAck) = .next t) ∧ Instr.wellFormed .nop = true ∧
    ∃ t, exec (.peek 10#16) (loaded frameAck) = .next t := ⟨⟨_, rfl⟩, ⟨_, rfl⟩, ⟨_, rfl⟩, rfl, _, rfl⟩

/-- A full buffer and one with room. -/
theorem witness_AppendPutsTheByteAtTheEnd :
    (tiny (List.replicate 8 0x11#8)).Inv ∧ (tiny (List.replicate 8 0x11#8)).count = 8 ∧
    (tiny (List.replicate 7 0x11#8)).Inv := ⟨by constructor <;> decide, by decide, by constructor <;> decide⟩

/-- As many new bytes as the buffer holds. -/
theorem witness_BulkAppendKeepsTheLastBytes :
    ((tiny [0x11#8]).setInputs (issue (Assembler.Line.appends (List.replicate 8 0x22#8)).expand)).Inv ∧
    ((tiny [0x11#8]).setInputs (issue (Assembler.Line.appends (List.replicate 8 0x22#8)).expand)).inputs =
      issue (Assembler.Line.appends (List.replicate 8 0x22#8)).expand ++ [] ∧
    (tiny [0x11#8]).params.capacity ≤ (List.replicate 8 0x22#8).length :=
  ⟨State.Inv.setInputs (by constructor <;> decide) _, by simp, by decide⟩

theorem witness_PeekAnswersTheWindowByte : (window (loaded [0#8, 0xB5#8, 0x62#8]))[(2#16 : Half).toNat]? = some 0x62#8 := by
  decide

theorem witness_PeekPastTheWindowSetsOnlyErrOor : (loaded [0#8, 0xB5#8, 0x62#8]).count ≤ (3#16 : Half).toNat := by
  decide

/-- A pattern at the lowest offset, one at the highest, and none. -/
theorem witness_FindsyncAnswersTheLowestOffset :
    SyncIn (window (loaded [0xB5#8, 0x62#8])) 0 ∧
    (SyncIn (window (loaded [0xB5#8, 0xB5#8, 0x62#8])) 1 ∧
      ∀ j < 1, ¬ SyncIn (window (loaded [0xB5#8, 0xB5#8, 0x62#8])) j) ∧
    NoSync (window (loaded [0x62#8, 0xB5#8])) := by
  refine ⟨by unfold SyncIn; decide, ⟨by unfold SyncIn; decide, by unfold SyncIn; decide⟩, ?_⟩
  exact findSync_eq_none.1 (by decide)

theorem witness_WindowGrowsByAppendAndShrinksAtTheFront :
    (loaded [0#8, 0xB5#8, 0x62#8]).Inv ∧ (∃ t, exec (.append 1#8) (loaded [0#8, 0xB5#8, 0x62#8]) = .next t) ∧
    ∃ t, exec .step (loaded [0#8, 0xB5#8, 0x62#8]) = .next t := ⟨inv_loaded, ⟨_, rfl⟩, _, rfl⟩

/-- Each clause at the largest and the smallest count it takes. -/
theorem witness_StepWaitsForDataOrHeader :
    (loaded [0xB5#8]).count < 2 ∧
    (SyncIn (window (loaded [0xB5#8, 0x62#8])) 0 ∧ (loaded [0xB5#8, 0x62#8]).count < 6) ∧
    SyncIn (window (loaded (frameAck.take 5))) 0 ∧ (loaded (frameAck.take 5)).count < 6 := by
  unfold SyncIn
  decide

/-- A header with nothing after it, the largest legal length (S9), and a frame short of one byte (S13). -/
theorem witness_StepWaitsForTheWholeFrame :
    (SyncIn (window (loaded [0xB5#8, 0x62#8, 1#8, 7#8, 0#8, 0x10#8])) 0 ∧
      PayloadLen (window (loaded [0xB5#8, 0x62#8, 1#8, 7#8, 0#8, 0x10#8])) 4096 ∧
      4096 ≤ (loaded []).params.maxPayload) ∧
    SyncIn (window (loaded (frameAck.take 9))) 0 ∧ PayloadLen (window (loaded (frameAck.take 9))) 2 ∧
    (loaded (frameAck.take 9)).count < 8 + 2 :=
  ⟨⟨by unfold SyncIn; decide, payloadLen_iff.2 (by decide), by decide⟩,
    by unfold SyncIn; decide, payloadLen_iff.2 (by decide), by decide⟩

theorem witness_StepWithoutSyncKeepsOnlyTheNewestByte :
    2 ≤ (loaded [0#8, 0xB5#8]).count ∧ NoSync (window (loaded [0#8, 0xB5#8])) :=
  ⟨by decide, findSync_eq_none.1 (by decide)⟩

theorem witness_StepDropsJunkBeforeTheSync :
    SyncIn (window (loaded [0xB5#8, 0xB5#8, 0x62#8])) 1 ∧
    ∀ j < 1, ¬ SyncIn (window (loaded [0xB5#8, 0xB5#8, 0x62#8])) j :=
  ⟨by unfold SyncIn; decide, by unfold SyncIn; decide⟩

/-- MAX_PAYLOAD + 1 and MAX_PAYLOAD, where the two clauses meet (S8, S9). -/
theorem witness_StepDropsTheSyncOfABadLength :
    (SyncIn (window (loaded [0xB5#8, 0x62#8, 1#8, 7#8, 1#8, 0x10#8])) 0 ∧
      PayloadLen (window (loaded [0xB5#8, 0x62#8, 1#8, 7#8, 1#8, 0x10#8])) 4097 ∧
      (loaded []).params.maxPayload < 4097) ∧
    SyncIn (window (loaded [0xB5#8, 0x62#8, 1#8, 7#8, 0#8, 0x10#8])) 0 ∧
    PayloadLen (window (loaded [0xB5#8, 0x62#8, 1#8, 7#8, 0#8, 0x10#8])) 4096 ∧
    4096 ≤ (loaded []).params.maxPayload ∧
    ∃ t, exec .step (loaded [0xB5#8, 0x62#8, 1#8, 7#8, 0#8, 0x10#8]) = .next t :=
  ⟨⟨by unfold SyncIn; decide, payloadLen_iff.2 (by decide), by decide⟩,
    by unfold SyncIn; decide, payloadLen_iff.2 (by decide), by decide, _, rfl⟩

/-- S10 and S11: the second or the first checksum byte wrong. -/
theorem witness_StepDropsTheSyncOfABadChecksum :
    (Candidate (loaded (frameZl.take 7 ++ [0x35#8])) 0x0A#8 0x04#8 0 ∧
      ¬ TrailerAgrees (window (loaded (frameZl.take 7 ++ [0x35#8]))) 0) ∧
    Candidate (loaded (frameZl.take 6 ++ [0x0F#8, 0x34#8])) 0x0A#8 0x04#8 0 ∧
    ¬ TrailerAgrees (window (loaded (frameZl.take 6 ++ [0x0F#8, 0x34#8]))) 0 :=
  ⟨⟨⟨by unfold SyncIn; decide, by decide, by decide, payloadLen_iff.2 (by decide), by decide, by decide⟩,
      by unfold TrailerAgrees; decide⟩,
    ⟨by unfold SyncIn; decide, by decide, by decide, payloadLen_iff.2 (by decide), by decide, by decide⟩,
    by unfold TrailerAgrees; decide⟩

/-- The frame ZL: the shortest candidate. -/
theorem candidate_frameZl : Candidate (loaded frameZl) 0x0A#8 0x04#8 0 :=
  ⟨by unfold SyncIn; decide, by decide, by decide, payloadLen_iff.2 (by decide), by decide, by decide⟩

theorem witness_StepWritesTheSumsOfACandidateToCk :
    Candidate (loaded frameZl) 0x0A#8 0x04#8 0 ∧ ∃ t, exec .step (loaded frameZl) = .next t :=
  ⟨candidate_frameZl, _, rfl⟩

theorem witness_StepCountsAndConsumesAnotherFrame :
    Candidate (loaded frameZl) 0x0A#8 0x04#8 0 ∧ TrailerAgrees (window (loaded frameZl)) 0 :=
  ⟨candidate_frameZl, by unfold TrailerAgrees; decide⟩

/-- A target frame. -/
theorem candidate_frameTarget : Candidate (loaded frameTarget) 0x01#8 0x07#8 92 :=
  ⟨by unfold SyncIn; decide +kernel, by decide +kernel, by decide +kernel, payloadLen_iff.2 (by decide +kernel),
    by decide, by decide +kernel⟩

theorem trailerAgrees_frameTarget : TrailerAgrees (window (loaded frameTarget)) 92 := by
  unfold TrailerAgrees
  decide +kernel

theorem witness_StepEmitsATargetFrame :
    Candidate (loaded frameTarget) 0x01#8 0x07#8 92 ∧ TrailerAgrees (window (loaded frameTarget)) 92 ∧
    Pin.sample (loaded frameTarget).foReady = (true, ⟨[], true⟩) :=
  ⟨candidate_frameTarget, trailerAgrees_frameTarget, rfl⟩

/-- The same state before a downstream that never takes a record. -/
theorem witness_StepHangsOnAnUntakenRecord :
    Candidate ((loaded frameTarget).setFoReady ⟨[], false⟩) 0x01#8 0x07#8 92 ∧
    TrailerAgrees (window ((loaded frameTarget).setFoReady ⟨[], false⟩)) 92 ∧
    Pin.sample ((loaded frameTarget).setFoReady ⟨[], false⟩).foReady = (false, ⟨[], false⟩) :=
  ⟨⟨candidate_frameTarget.1, candidate_frameTarget.2, candidate_frameTarget.3, candidate_frameTarget.4,
    candidate_frameTarget.5, candidate_frameTarget.6⟩, trailerAgrees_frameTarget, rfl⟩

/-- `exec` faults there: the model's one stop is reached. -/
theorem witness_OnlyAnUntakenRecordStopsTheMachine :
    answer State.count (exec .step ((loaded frameTarget).setFoReady ⟨[], false⟩)) = none ∧
    answer State.count (exec .run ((loaded frameTarget).setFoReady ⟨[], false⟩)) = none := by decide +kernel

theorem witness_BuiltFrameIsAccepted :
    (loaded (frameAck ++ [0x11#8])).Inv ∧ (loaded (frameAck ++ [0x11#8])).DownstreamTakes ∧
    [0x01#8, 0x07#8].length ≤ (loaded (frameAck ++ [0x11#8])).params.maxPayload ∧
    window (loaded (frameAck ++ [0x11#8])) = validFrame 0x05#8 0x01#8 [0x01#8, 0x07#8] ++ [0x11#8] :=
  ⟨by constructor <;> decide, downstreamTakes_loaded _, by decide, by decide⟩

/-- Every outcome is reached. -/
theorem witness_ContinuesRemoveBytesAndStopsWait :
    (∃ t, iterate (loaded [0#8, 0xB5#8, 0x62#8]) = .ended .junk t) ∧
    (∃ t, iterate (loaded [0xB5#8, 0x62#8, 1#8, 7#8, 1#8, 0x10#8]) = .ended .badLength t) ∧
    (∃ t, iterate (loaded (frameZl.take 7 ++ [0x35#8])) = .ended .badChecksum t) ∧
    (∃ t, iterate (loaded frameAck) = .ended .frameOk t) ∧ (∃ t, iterate (loaded []) = .ended .needData t) ∧
    (∃ t, iterate (loaded [0xB5#8, 0x62#8]) = .ended .needHeader t) ∧
    (∃ t, iterate (loaded (frameAck.take 9)) = .ended .needFrame t) ∧
    ∃ t, iterate (loaded [0#8, 0#8]) = .ended .noSync t :=
  ⟨⟨_, rfl⟩, ⟨_, rfl⟩, ⟨_, rfl⟩, ⟨_, rfl⟩, ⟨_, rfl⟩, ⟨_, rfl⟩, ⟨_, rfl⟩, _, rfl⟩

/-- A full buffer, which is the least that holds the largest frame. -/
theorem witness_FullBufferNeverWaits :
    (tiny frameZl).Inv ∧ 8 + (tiny frameZl).params.maxPayload ≤ (tiny frameZl).count ∧
    (tiny frameZl).count = (tiny frameZl).params.capacity ∧ ∃ t, iterate (tiny frameZl) = .ended .frameOk t :=
  ⟨by constructor <;> decide, by decide, by decide, _, rfl⟩

/-- The first bit of the class and the last bit of ckB. -/
theorem witness_OneFlippedBitFailsTheChecksum :
    ((loaded [0xB5#8, 0x62#8, 0x0B#8, 0x04#8, 0#8, 0#8, 0x0E#8, 0x34#8]).Inv ∧
      window (loaded [0xB5#8, 0x62#8, 0x0B#8, 0x04#8, 0#8, 0#8, 0x0E#8, 0x34#8]) =
        (validFrame 0x0A#8 0x04#8 []).modify 2 (fun b => b ^^^ (1#8 <<< 0)) ++ []) ∧
    (loaded [0xB5#8, 0x62#8, 0x0A#8, 0x04#8, 0#8, 0#8, 0x0E#8, 0xB4#8]).Inv ∧
    window (loaded [0xB5#8, 0x62#8, 0x0A#8, 0x04#8, 0#8, 0#8, 0x0E#8, 0xB4#8]) =
      (validFrame 0x0A#8 0x04#8 []).modify 7 (fun b => b ^^^ (1#8 <<< 7)) ++ [] :=
  ⟨⟨by constructor <;> decide, by decide⟩, by constructor <;> decide, by decide⟩

/-- A bad length and a bad checksum, each with a sync pattern right after the two bytes that go. -/
theorem witness_FailedCandidateKeepsLaterFrames :
    (∃ t, exec .step (loaded [0xB5#8, 0x62#8, 0xB5#8, 0x62#8, 0xB5#8, 0x62#8]) = .next t ∧ t.lastOutcome = 4#32) ∧
    SyncIn (window (loaded [0xB5#8, 0x62#8, 0xB5#8, 0x62#8, 0xB5#8, 0x62#8])) 2 ∧
    (∃ t, exec .step (loaded [0xB5#8, 0x62#8, 0xB5#8, 0x62#8, 0#8, 0#8, 0#8, 0#8]) = .next t ∧
      t.lastOutcome = 6#32) ∧
    SyncIn (window (loaded [0xB5#8, 0x62#8, 0xB5#8, 0x62#8, 0#8, 0#8, 0#8, 0#8])) 2 :=
  ⟨⟨_, rfl, rfl⟩, by unfold SyncIn; decide, ⟨_, rfl, rfl⟩, by unfold SyncIn; decide⟩

theorem witness_StepBeforeTheChecksumLeavesCk :
    ∃ t, exec .step (loaded [0#8, 0xB5#8, 0x62#8]) = .next t ∧ t.lastOutcome ≠ 6#32 ∧ t.lastOutcome ≠ 7#32 :=
  ⟨_, rfl, by decide, by decide⟩

theorem witness_RunAnswersItsReasonAndCount : (loaded frameAck).DownstreamTakes := downstreamTakes_loaded _

theorem witness_RunCancelledAtTheStartRunsNothing :
    Pin.sample ((loaded frameAck).setCancel ⟨[], true⟩).cancel = (true, ⟨[], true⟩) := rfl

/-- A small FX whose RUN is cut off by the cap after one iteration. -/
def capped : State :=
  { loaded [0xB5#8, 0x62#8, 0xB5#8, 0x62#8, 0xB5#8, 0x62#8] with
    params := { capacity := 8, maxPayload := 0, iterCap := 1 } }

/-- A RUN that stops and one that the cap ends. -/
theorem witness_RunEndsWithinItsBound :
    (capped.Inv ∧ ∃ t, exec .run capped = .next t ∧
      t.out = capped.out ++ ([] : List FrameOut).map .frame ++ [.response ⟨.ok, BitVec.ofNat 32 (2 ^ 16 * 1 + 8)⟩]) ∧
    (loaded [0#8, 0xB5#8, 0x62#8]).Inv ∧ ∃ t, exec .run (loaded [0#8, 0xB5#8, 0x62#8]) = .next t ∧
      t.out = (loaded []).out ++ ([] : List FrameOut).map .frame ++
        [.response ⟨.ok, BitVec.ofNat 32 (2 ^ 16 * 2 + 3)⟩] :=
  ⟨⟨by constructor <;> decide, _, rfl, by decide⟩, inv_loaded, _, rfl, by decide⟩

theorem neverCancelled_loaded (l : List Byte) : (loaded l).NeverCancelled := ⟨rfl, by simp [loaded, State.reset]⟩

/-- A RUN that stops, one that the cap ends, and one that is cancelled at the cap's boundary. -/
theorem witness_RunIsRepeatedStep :
    ((loaded frameAck).runCount = none ∧ ∃ t, exec .run (loaded frameAck) = .next t ∧ t.lastOutcome = 0#32) ∧
    (capped.runCount = none ∧ ∃ t, exec .run capped = .next t ∧ t.lastOutcome = 8#32) ∧
    (capped.setCancel ⟨[false], true⟩).runCount = none ∧
    ∃ t, exec .run (capped.setCancel ⟨[false], true⟩) = .next t ∧ t.lastOutcome = 9#32 ∧ t.count = 4 :=
  ⟨⟨rfl, _, rfl, rfl⟩, ⟨rfl, _, rfl, rfl⟩, rfl, _, rfl, rfl, rfl⟩

/-- A first RUN that ends with NO_SYNC, one with NEED_HEADER, one with NEED_FRAME and one with CAP_EXCEEDED, and a
state the second RUN may start from. -/
theorem witness_SecondRunIsQuiescent :
    (∃ t, exec .run (loaded [0#8, 0#8]) = .next t ∧ t.lastOutcome = 1#32) ∧
    (∃ t, exec .run (loaded (frameAck.take 9)) = .next t ∧ t.lastOutcome = 5#32) ∧
    (∃ t, exec .run capped = .next t ∧ t.lastOutcome = 8#32) ∧
    ∃ t, exec .run (loaded [0#8, 0xB5#8, 0x62#8]) = .next t ∧ t.lastOutcome = 3#32 ∧
      window t = window t ∧ 1 ≤ t.params.iterCap ∧ Pin.sample t.cancel = (false, ⟨[], false⟩) :=
  ⟨⟨_, rfl, rfl⟩, ⟨_, rfl, rfl⟩, ⟨_, rfl, rfl⟩, _, rfl, rfl, rfl, by decide, rfl⟩

theorem witness_RunLeavesLessThanAFrame :
    (loaded [0#8, 0xB5#8, 0x62#8]).Inv ∧
    ∃ t, exec .run (loaded [0#8, 0xB5#8, 0x62#8]) = .next t ∧ t.lastOutcome ≠ 9#32 :=
  ⟨inv_loaded, _, rfl, by decide⟩

/-! The host that appends a target frame between two bytes in two chunks. -/

/-- The two chunks: the frame is cut after its tenth byte. -/
def hostChunks : List (List Byte) := [0#8 :: frameTarget.take 10, frameTarget.drop 10 ++ [0x11#8]]

/-- The commands of that host. -/
def hostCommands : List Instr := hostChunks.flatMap (fun c => c.map Instr.append ++ [.run]) ++ [.run]

theorem chunkedHost_hostChunks : chunkedHost hostChunks = issue hostCommands := by
  simp [chunkedHost, hostCommands, issue, List.map_flatMap]

theorem decode_hostCommands : ∀ i ∈ hostCommands, decode (encode i) = .ok i := by decide +kernel

theorem noSync_one (b : Byte) : NoSync [b] := by
  rintro i ⟨-, h⟩
  simp at h

theorem witness_OneTargetFrameInNoiseIsReportedOnce :
    let s := State.reset.setInputs (chunkedHost hostChunks)
    s.Inv ∧ s.params = Config.Params.document ∧ s.count = 0 ∧ s.NeverCancelled ∧ s.DownstreamTakes ∧
    NoSync [0#8] ∧ NoSync [0x11#8] ∧ (List.replicate 92 0#8).length = 92 ∧
    hostChunks.flatten = [0#8] ++ validFrame 0x01#8 0x07#8 (List.replicate 92 0#8) ++ [0x11#8] ∧
    s.inputs = chunkedHost hostChunks ∧
    ∀ (n : Nat) (u : State) (b : Byte) (rest : List HostInput), runs n s = .next u →
      u.inputs = .command (encode (.append b)) :: rest → u.count < u.params.capacity := by
  refine ⟨State.Inv.setInputs (by constructor <;> decide) _, rfl, rfl, neverCancelled_loaded [],
    downstreamTakes_reset, noSync_one _, noSync_one _, by decide, ?_, rfl, ?_⟩
  · decide +kernel
  · intro n u b rest hu _
    obtain ⟨hp, hc⟩ := runs_fill n hostCommands _ u decode_hostCommands
      (by rw [State.setInputs_inputs, chunkedHost_hostChunks]) hu
    have hl : hostCommands.length = 105 := by decide +kernel
    have h0 : (State.reset.setInputs (chunkedHost hostChunks)).count = 0 := rfl
    have hcap : u.params.capacity = 8192 := by rw [hp]; rfl
    omega

theorem witness_CkfeedAccumulatesOneByte :
    0xFE = (({ State.reset with ck := 0x00FF#32 } : State).ck.toNat % 256 + (0xFF#8 : Byte).toNat) % 256 ∧
    0xFE = (({ State.reset with ck := 0x00FF#32 } : State).ck.toNat / 256 % 256 + 0xFE) % 256 := by decide

theorem witness_CksumLeavesTheFletcherSums :
    (State.reset.setInputs (issue (Assembler.Line.cksum (checkedBytes 5#8 1#8 [1#8, 7#8])).expand)).inputs =
      issue (Assembler.Line.cksum (checkedBytes 5#8 1#8 [1#8, 7#8])).expand ++ [] := by simp

/-- The reserved words next to RDREG's ten. -/
theorem witness_RdregAnswersTheRegister :
    (0xA000000A#32 : Word).toNat / 2 ^ 28 = 0xA ∧ 10 ≤ (0xA000000A#32 : Word).toNat % 2 ^ 4 ∧
    (0xA0000010#32 : Word).toNat / 2 ^ 28 = 0xA ∧ (0xA0000010#32 : Word).toNat % 2 ^ 28 / 2 ^ 4 ≠ 0 := by decide

/-- A record of one byte, whose one transfer is first and last. -/
theorem witness_RecordIsOneTransferPerPayloadByte :
    (FrameOut.transfers ⟨1#8, 7#8, 1#16, [0x11#8]⟩)[0]? = some ⟨0x11#8, true, true⟩ := by decide

end Sys2Proof.Tests
end

/-! PROOFS. The statements of 30_encoding.md: a word read by the opcode map of R54 and the arithmetic of R55, the
sample words of R60, and the pseudo-commands of R61. -/

namespace Sys2Proof.Machine

/-! The operand fields as numbers (R53). -/

theorem imm8Of_eq_ofNat (w : Word) : imm8Of w = BitVec.ofNat 8 w.toNat := by
  apply BitVec.eq_of_toNat_eq
  simp [imm8Of]

theorem imm16Of_eq_ofNat (w : Word) : imm16Of w = BitVec.ofNat 16 w.toNat := by
  apply BitVec.eq_of_toNat_eq
  simp [imm16Of]

theorem ridxOf_eq_ofNat (w : Word) : ridxOf w = BitVec.ofNat 4 w.toNat := by
  apply BitVec.eq_of_toNat_eq
  simp [ridxOf]

/-! The opcode map (R54), by format. -/

/-- The opcodes of each format (R54). -/
def opcodesOf : Format → List Nat
  | .z => [0x0, 0x4, 0x5, 0x6, 0x7, 0x8]
  | .b => [0x1, 0x9]
  | .h => [0x2, 0x3]
  | .r => [0xA]

theorem formatOf_eq_some {op : BitVec 4} {f : Format} : formatOf op = some f ↔ op.toNat ∈ opcodesOf f := by
  cases f <;> revert op <;> decide

theorem formatOf_eq_none {op : BitVec 4} : formatOf op = none ↔ 0xB ≤ op.toNat := by
  revert op; decide

/-- An opcode with a format names the command of the opcode map. -/
theorem commandOf_of_format {w : Word} {f : Format} (hf : formatOf (opcodeOf w) = some f) :
    commandOf w = some (wordReading w) := by
  have hop : w.toNat / 2 ^ 28 < 0xB := by
    rw [← opcodeOf_toNat, ← Nat.not_le, ← formatOf_eq_none, hf]
    exact Option.some_ne_none f
  unfold commandOf wordReading
  rw [opcodeOf_toNat, imm8Of_eq_ofNat, imm16Of_eq_ofNat, ridxOf_eq_ofNat]
  generalize w.toNat / 2 ^ 28 = op at hop
  interval_cases op <;> rfl

/-! Decoding in the order of R55: the opcode, the reserved bits, RDREG's index. -/

theorem decode_of_reservedOpcode {w : Word} (h : formatOf (opcodeOf w) = none) :
    decode w = .error .reservedOpcode := by
  simp [decode, h]

theorem decode_of_format {w : Word} {f : Format} (hf : formatOf (opcodeOf w) = some f) :
    decode w =
      if reservedClear f w then
        if (wordReading w).wellFormed then .ok (wordReading w) else .error .reservedRegister
      else .error .reservedBits := by
  simp [decode, hf, commandOf_of_format hf]

/-! The checks of R55 as arithmetic on the word. -/

/-- The width of each format's operand, at the low end of the word (R52). -/
def operandWidth : Format → Nat
  | .z => 0
  | .b => 8
  | .h => 16
  | .r => 4

/-- A field that ends at bit 27 is 0. -/
theorem field_beq_zero_iff (w : Word) {start len : Nat} (h : start + len = 28) :
    (w.extractLsb' start len == 0#len) = true ↔ w.toNat % 2 ^ 28 / 2 ^ start = 0 := by
  rw [beq_iff_eq, ← BitVec.toNat_inj, field_toNat, BitVec.toNat_ofNat, Nat.zero_mod, ← h, Nat.pow_add,
    Nat.mod_mul_right_div_self]

theorem reservedClear_iff (f : Format) (w : Word) :
    reservedClear f w = true ↔ w.toNat % 2 ^ 28 / 2 ^ operandWidth f = 0 := by
  cases f <;> exact field_beq_zero_iff w rfl

/-- RDREG's index is the one operand a legal opcode can refuse. -/
theorem wellFormed_wordReading_of_lt {w : Word} (h : w.toNat / 2 ^ 28 < 0xA) : (wordReading w).wellFormed = true := by
  unfold wordReading
  generalize w.toNat / 2 ^ 28 = op at h
  interval_cases op <;> rfl

theorem wellFormed_wordReading_rdreg {w : Word} (h : w.toNat / 2 ^ 28 = 0xA) :
    (wordReading w).wellFormed = true ↔ w.toNat % 2 ^ 28 % 2 ^ 4 < 10 := by
  have hr : wordReading w = .rdreg (BitVec.ofNat 4 w.toNat) := by unfold wordReading; rw [h]; rfl
  rw [hr, Instr.wellFormed, decide_eq_true_iff, BitVec.toNat_ofNat, Nat.mod_mod_of_dvd _ (by decide)]

theorem illegalWord_of_reservedOpcode {w : Word} (h : formatOf (opcodeOf w) = none) : IllegalWord w := by
  rw [formatOf_eq_none, opcodeOf_toNat] at h
  exact .inl h

/-- Below the reserved opcodes a word is illegal exactly when it fails one of the two checks left. -/
theorem illegalWord_iff_of_format {w : Word} {f : Format} (hf : formatOf (opcodeOf w) = some f) :
    IllegalWord w ↔ ¬ (reservedClear f w = true ∧ (wordReading w).wellFormed = true) := by
  rw [formatOf_eq_some, opcodeOf_toNat] at hf
  rw [reservedClear_iff]
  cases f with
  | r =>
    have hop : w.toNat / 2 ^ 28 = 0xA := List.mem_singleton.1 hf
    rw [wellFormed_wordReading_rdreg hop]
    simp only [IllegalWord, operandWidth, hop, List.mem_cons, List.not_mem_nil, or_false, true_and]
    generalize w.toNat % 2 ^ 28 = area
    omega
  | z | b | h =>
    simp only [opcodesOf, List.mem_cons, List.not_mem_nil, or_false] at hf
    rw [wellFormed_wordReading_of_lt (by omega), eq_self, and_true]
    simp only [IllegalWord, operandWidth, List.mem_cons, List.not_mem_nil, or_false]
    generalize w.toNat % 2 ^ 28 = area
    omega

/-- Settles O3, by whether the opcode has a format: R55's three checks, one after the other. -/
theorem everyWordIsOneCommandOrIllegal : Obligations.EveryWordIsOneCommandOrIllegal := by
  intro w
  cases hf : formatOf (opcodeOf w) with
  | none =>
    exact ⟨fun _ => ⟨_, decode_of_reservedOpcode hf⟩, fun h => absurd (illegalWord_of_reservedOpcode hf) h⟩
  | some f =>
    rw [illegalWord_iff_of_format hf, decode_of_format hf]
    refine ⟨fun hbad => ?_, fun hgood => ?_⟩
    · by_cases hr : reservedClear f w = true
      · have hi : ¬ (wordReading w).wellFormed = true := fun hi => hbad ⟨hr, hi⟩
        exact ⟨.reservedRegister, by rw [if_pos hr, if_neg hi]⟩
      · exact ⟨.reservedBits, if_neg hr⟩
    · obtain ⟨hr, hi⟩ := not_not.1 hgood
      rw [if_pos hr, if_pos hi]

/-! DRAIN (R61) is CONSUME of 65535. -/

theorem decode_encode_drain : decode (encode (.consume 0xFFFF#16)) = .ok (.consume 0xFFFF#16) := by decide

/-- The window fits one CONSUME in every built FX: `count ≤ C ≤ 65535` (R61, 00_scope.md R7). -/
theorem State.Inv.count_le_65535 {s : State} (h : s.Inv) : s.count ≤ 65535 := by
  obtain ⟨-, hcap, -⟩ := h.params
  exact h.count.trans hcap

/-- DRAIN from the port: one step empties the window and answers what it held. -/
theorem step_drain {s : State} (h : s.Inv) (hin : s.inputs = issue Assembler.Line.drain.expand) :
    step s = .next ((consumeBytes 65535 (s.setInputs [])).emit (.response ⟨.ok, BitVec.ofNat 32 s.count⟩)) := by
  have hall : consumed 65535 (s.setInputs []) = s.count := Nat.min_eq_right (h.setInputs []).count_le_65535
  calc step s = exec (.consume 0xFFFF#16) (s.setInputs []) := step_legal hin decode_encode_drain
    _ = respond .ok (wordOfNat (consumed 65535 (s.setInputs []))) (consumeBytes 65535 (s.setInputs [])) := rfl
    _ = _ := by rw [hall, respond_eq, wordOfNat]

/-- Settles O7: the expansions are the definition's, and DRAIN is the one step `step_drain`. -/
theorem pseudoCommandsExpandAndDrainEmpties : Obligations.PseudoCommandsExpandAndDrainEmpties := by
  refine ⟨fun _ => ⟨rfl, rfl⟩, by decide, by decide, by decide, fun s h hin => ?_⟩
  have hle := h.count_le_65535
  refine ⟨_, (runs_succ_of_next 0 (step_drain h hin)).trans (runs_zero _), ?_, ?_, ?_⟩
  · simp [hle]
  · simp [hle]
  · simp

/-- Settles O4: each word is fixed, so `decode` evaluates. -/
theorem sampleWordsDecodeAsTheSpecWritesThem : Obligations.SampleWordsDecodeAsTheSpecWritesThem := by
  unfold Obligations.SampleWordsDecodeAsTheSpecWritesThem
  decide

end Sys2Proof.Machine

/-! PROOFS. The buffer statements of 40_ringbuffer.md: bulk append, FINDSYNC and CLEAR (R64, R65, R69). -/

namespace Sys2Proof.Machine

/-! APPEND from the port (R68). -/

theorem decode_encode_append (b : Byte) : decode (encode (.append b)) = .ok (.append b) := by
  simp [decode, formatOf, reservedClear, commandOf, Instr.wellFormed]

/-- An APPEND from the port appends its byte and answers (OK, 0). -/
theorem step_append {s : State} {b : Byte} {rest : List HostInput}
    (hin : s.inputs = .command (encode (.append b)) :: rest) :
    step s = .next ((appendByte b (s.setInputs rest)).emit (.response ⟨.ok, 0#32⟩)) :=
  step_legal hin (decode_encode_append b)

/-- The eviction of a full buffer as a cut to the last C bytes (R62). -/
theorem window_appendByte_eq_drop {s : State} (h : s.Inv) (b : Byte) :
    window (appendByte b s) = (window s ++ [b]).drop (s.count + 1 - s.params.capacity) := by
  rw [window_appendByte b h.capacity_pos h.count h.canonical]
  split
  · next hfull =>
    have hpos := h.capacity_pos
    rw [hfull, Nat.add_sub_cancel_left, List.drop_append_of_le_length (by rw [window_length]; omega)]
  · next hroom =>
    have hle := h.count
    rw [show s.count + 1 - s.params.capacity = 0 by omega, List.drop_zero]

/-- Cutting to the last `c` bytes after every part is one cut at the end. -/
theorem drop_append_drop {α : Type} (l m : List α) {c k : Nat} (hk : k = l.length - c) :
    (l.drop k ++ m).drop (min l.length c + m.length - c) = (l ++ m).drop (l.length + m.length - c) := by
  rw [← List.drop_append_of_le_length (by omega), List.drop_drop]
  congr 1
  omega

/-- A bulk append runs through, one byte to a step, and leaves the last C bytes of the old window with the new bytes
at its end (R69). -/
theorem runs_appends (bytes : List Byte) {s : State} {rest : List HostInput} (h : s.Inv)
    (hin : s.inputs = issue (bytes.map .append) ++ rest) :
    ∃ t, runs bytes.length s = .next t ∧ t.inputs = rest ∧
      window t = (window s ++ bytes).drop (s.count + bytes.length - s.params.capacity) := by
  induction bytes generalizing s with
  | nil =>
    have hle := h.count
    exact ⟨s, runs_zero s, hin, by simp [hle]⟩
  | cons b bytes ih =>
    have hs := step_append (rest := issue (bytes.map .append) ++ rest) hin
    have h' := h.setInputs (issue (bytes.map .append) ++ rest)
    obtain ⟨t, hruns, hrest, hwin⟩ := ih ((h'.appendByte b).emit (.response ⟨.ok, 0#32⟩)) (by simp)
    refine ⟨t, (runs_succ_of_next _ hs).trans hruns, hrest, ?_⟩
    have hcut := drop_append_drop (window s ++ [b]) bytes (c := s.params.capacity) rfl
    rw [hwin, window_emit, window_appendByte_eq_drop h', State.emit_count,
      appendByte_count_eq b h'.capacity_pos h'.count]
    simpa [Nat.add_assoc, Nat.add_comm 1] using hcut

/-- Settles O25: `runs_appends`, whose cut lies inside the new bytes alone when there are C of them. -/
theorem bulkAppendKeepsTheLastBytes : Obligations.BulkAppendKeepsTheLastBytes := by
  intro s bytes rest h hin
  obtain ⟨t, hruns, hrest, hwin⟩ := runs_appends bytes h hin
  refine ⟨t, hruns, hrest, ?_, fun hfull => ?_⟩
  · rw [hwin]
    congr 1
    omega
  · rw [hwin, Nat.add_sub_assoc hfull, ← window_length s, List.drop_append, List.drop_of_length_le (by omega),
      List.nil_append, Nat.add_sub_cancel_left]

/-! FINDSYNC (R65, R72) and CLEAR (R64, R73): the command is its buffer operation and its answer. -/

/-- Settles O29: the answer is `FindSync`'s, and `findSync_eq_some` and `findSync_eq_none` say which it is. -/
theorem findsyncAnswersTheLowestOffset : Obligations.FindsyncAnswersTheLowestOffset := by
  intro s
  have hexec : exec .findsync s = respond .ok (syncData (findSync s)) s := rfl
  refine ⟨fun off hsync hlow => ⟨hsync.lt, ?_⟩, fun hno => ?_⟩
  · rw [hexec, findSync_eq_some.2 ⟨hsync, hlow⟩]
    rfl
  · rw [hexec, findSync_eq_none.2 hno]
    rfl

/-- Settles O30: CLEAR is `clearBuffer` and the answer (OK, 0). -/
theorem clearEmptiesTheWindow : Obligations.ClearEmptiesTheWindow := by
  intro s
  have hexec : exec .clear s = .next ((clearBuffer s).emit (.response ⟨.ok, 0#32⟩)) := rfl
  exact ⟨_, hexec, window_clearBuffer s, rfl⟩

end Sys2Proof.Machine

/-! PROOFS. The statements of 41_extractor.md about one iteration and its STEP: what each outcome removes, keeps and
writes (R77 to R93). -/

namespace Sys2Proof.Machine

/-! STEP is its iteration and the answer of its outcome's code (R94). -/

section
variable (s : State) (code : Nat)
@[simp] theorem answered_lastOutcome : (s.answered code).lastOutcome = BitVec.ofNat 32 code := rfl
@[simp] theorem answered_count : (s.answered code).count = s.count := rfl
@[simp] theorem answered_validCount : (s.answered code).validCount = s.validCount := rfl
@[simp] theorem answered_ck : (s.answered code).ck = s.ck := rfl
@[simp] theorem window_answered : window (s.answered code) = window s := rfl
@[simp] theorem frames_answered : (s.answered code).frames = s.frames := frames_emit_response s _
end

theorem exec_step_of_ended {s u : State} {o : IterOutcome} (h : iterate s = .ended o u) :
    exec .step s = .next (u.answered o.code.toNat) := by
  have hexec : exec .step s = execStep s := rfl
  rw [hexec, execStep, h]
  simp only [respond_eq, outcomeWord_eq_ofNat]
  rfl

/-- A STEP that responds answers the outcome its iteration ended with. -/
theorem exec_step_next {s t : State} (h : exec .step s = .next t) :
    ∃ o u, iterate s = .ended o u ∧ t = u.answered o.code.toNat := by
  cases hi : iterate s with
  | ended o u => exact ⟨o, u, rfl, Host.Outcome.next.inj (h.symm.trans (exec_step_of_ended hi))⟩
  | hung u =>
    have hexec : exec .step s = execStep s := rfl
    rw [hexec, execStep, hi] at h
    cases h

theorem code_eq_badLength {o : IterOutcome} : BitVec.ofNat 32 o.code.toNat = 4#32 ↔ o = .badLength := by
  cases o <;> decide

theorem code_eq_badChecksum {o : IterOutcome} : BitVec.ofNat 32 o.code.toNat = 6#32 ↔ o = .badChecksum := by
  cases o <;> decide

/-- Settles O32: both iterations leave the state as it is. -/
theorem stepWaitsForDataOrHeader : Obligations.StepWaitsForDataOrHeader := fun _ =>
  ⟨fun hc => exec_step_of_ended (iterate_of_needData hc),
    fun hs hc => exec_step_of_ended (iterate_of_needHeader hs hc)⟩

/-- Settles O34: the iteration consumes `count - 1` bytes. -/
theorem stepWithoutSyncKeepsOnlyTheNewestByte : Obligations.StepWithoutSyncKeepsOnlyTheNewestByte := by
  intro s hc hn
  have hle : s.count - 1 ≤ s.count := Nat.sub_le _ _
  refine ⟨?_, window_dropped hle, Nat.sub_sub_self (by omega)⟩
  rw [exec_step_of_ended (iterate_of_noSync hc hn), consumeBytes_eq_dropped hle]
  rfl

/-- A sync pattern in what is left after the first `n` bytes stands `n` later in the whole. -/
theorem syncIn_drop {l : List Byte} {n i : Nat} : SyncIn (l.drop n) i ↔ SyncIn l (n + i) := by
  simp only [SyncIn, List.getElem?_drop, Nat.add_assoc]

/-- Settles O35: the iteration consumes the bytes before the pattern. -/
theorem stepDropsJunkBeforeTheSync : Obligations.StepDropsJunkBeforeTheSync := by
  intro s off hpos hs hlow
  have hle : off ≤ s.count := by have := hs.lt; omega
  have hsync : SyncIn (window (s.dropped off)) 0 := by rwa [window_dropped hle, syncIn_drop]
  refine ⟨?_, window_dropped hle, hsync, hsync.lt⟩
  rw [exec_step_of_ended (iterate_of_junk hpos hs hlow), consumeBytes_eq_dropped hle]
  rfl

/-- Settles O36: the iteration with a bad length consumes two bytes, and no other ends with BAD_LENGTH. -/
theorem stepDropsTheSyncOfABadLength : Obligations.StepDropsTheSyncOfABadLength := by
  intro s plen hs hlen
  obtain ⟨h6, rfl⟩ := payloadLen_iff.1 hlen
  have hle : 2 ≤ s.count := by omega
  refine ⟨fun hbad => ⟨?_, window_dropped hle⟩, fun hlegal t ht hcode => ?_⟩
  · rw [exec_step_of_ended (iterate_of_badLength hs h6 hbad), consumeBytes_eq_dropped hle]
    rfl
  · obtain ⟨o, u, hi, rfl⟩ := exec_step_next ht
    obtain rfl := code_eq_badLength.1 hcode
    cases iterate_ended hi with
    | badLength _ _ hbad => omega

/-! A whole candidate frame and its checksum (R86, R87). -/

theorem Candidate.complete {s : State} {cls id : Byte} {plen : Nat} (h : Candidate s cls id plen) :
    Complete s ∧ plen = (parseHeader s).plen.toNat := by
  obtain ⟨-, rfl⟩ := payloadLen_iff.1 h.len
  exact ⟨⟨h.sync, h.legal, h.whole⟩, rfl⟩

/-- What step 8 writes to CK: the sums over the window's class, id, length and payload (R86). -/
theorem packCk_frameSums {s : State} (h : Complete s) :
    packCk (frameSums (parseHeader s) s).1 (frameSums (parseHeader s) s).2 =
      sumsWord (sumsOf (window s) (parseHeader s).plen.toNat) := by
  have hw := h.whole
  rw [packCk_eq_ofNat, frameSums_eq (by omega)]
  rfl

theorem iterate_of_badChecksum {s : State} {cls id : Byte} {plen : Nat} (h : Candidate s cls id plen)
    (ht : ¬ TrailerAgrees (window s) plen) :
    iterate s = .ended .badChecksum ((s.setCk (sumsWord (sumsOf (window s) plen))).dropped 2) := by
  obtain ⟨hf, rfl⟩ := h.complete
  have hw := hf.whole
  rw [← trailerMatches_iff hf] at ht
  rw [iterate_of_complete hf, checkFrame, if_neg ht, writeSums_eq_setCk, packCk_frameSums hf,
    consumeBytes_eq_dropped (by simp only [State.setCk_count]; omega)]

/-- A complete candidate's iteration gets to step 8, whatever its outcome. -/
theorem iterate_ck_of_complete {s u : State} {o : IterOutcome} (hf : Complete s) (h : iterate s = .ended o u) :
    u.ck = sumsWord (sumsOf (window s) (parseHeader s).plen.toNat) := by
  obtain ⟨hsync, hlegal, hwhole⟩ := hf
  rw [← packCk_frameSums ⟨hsync, hlegal, hwhole⟩]
  cases iterate_ended h with
  | needData hc => omega
  | noSync _ hn => exact absurd hsync (hn 0)
  | junk off hpos _ hlow => exact absurd hsync (hlow 0 hpos)
  | needHeader _ hc => omega
  | badLength _ _ hbad => omega
  | needFrame _ _ _ hc => omega
  | badChecksum => rfl
  | otherFrame => rfl
  | targetFrame => rfl

/-- Settles O37: `iterate_of_badChecksum`, answered. -/
theorem stepDropsTheSyncOfABadChecksum : Obligations.StepDropsTheSyncOfABadChecksum := by
  intro s cls id plen h ht
  have hw := h.whole
  exact ⟨exec_step_of_ended (iterate_of_badChecksum h ht), window_dropped (by omega)⟩

/-- Settles O38: `iterate_ck_of_complete`, and the answer leaves CK alone. -/
theorem stepWritesTheSumsOfACandidateToCk : Obligations.StepWritesTheSumsOfACandidateToCk := by
  intro s t cls id plen h ht
  obtain ⟨hf, rfl⟩ := h.complete
  obtain ⟨o, u, hi, rfl⟩ := exec_step_next ht
  rw [answered_ck]
  exact iterate_ck_of_complete hf hi

/-! What each outcome removes (R90). -/

theorem iterate_junk {s t : State} (h : iterate s = .ended .junk t) :
    ∃ off, 1 ≤ off ∧ findSync s = some off ∧ t.count + off = s.count := by
  cases iterate_ended h with
  | junk off hpos hs hlow =>
    have hlt := hs.lt
    exact ⟨off, hpos, findSync_eq_some.2 ⟨hs, hlow⟩, by rw [consumeBytes_count]; omega⟩

/-- A failed candidate loses its sync pattern and nothing else (R82, R87). -/
theorem iterate_failed {s t : State} {o : IterOutcome} (h : iterate s = .ended o t)
    (ho : o = .badLength ∨ o = .badChecksum) : window t = (window s).drop 2 ∧ t.count + 2 = s.count := by
  rcases ho with rfl | rfl
  · cases iterate_ended h with
    | badLength _ h6 => exact ⟨window_consumeBytes s 2, by rw [consumeBytes_count]; omega⟩
  · cases iterate_ended h with
    | badChecksum hf =>
      have hw := hf.whole
      exact ⟨by simp, by simp only [consumeBytes_count, writeSums_eq_setCk, State.setCk_count]; omega⟩

theorem iterate_frameOk {s t : State} (h : iterate s = .ended .frameOk t) :
    ∃ plen, PayloadLen (window s) plen ∧ t.count + (8 + plen) = s.count := by
  cases iterate_ended h with
  | otherFrame hf | targetFrame hf =>
    have hw := hf.whole
    refine ⟨_, payloadLen_iff.2 ⟨by omega, rfl⟩, ?_⟩
    simp only [consumeBytes_count, afterCount_count, State.emit_count, State.setFoReady_count]
    omega

theorem iterate_continue_count_lt {s t : State} {o : IterOutcome} (h : iterate s = .ended o t)
    (ho : o.isStop = false) : t.count < s.count := by
  cases o with
  | junk => obtain ⟨off, hpos, -, hc⟩ := iterate_junk h; omega
  | badLength => have := (iterate_failed h (.inl rfl)).2; omega
  | badChecksum => have := (iterate_failed h (.inr rfl)).2; omega
  | frameOk => obtain ⟨plen, -, hc⟩ := iterate_frameOk h; omega
  | needData | noSync | needHeader | needFrame => cases ho

theorem iterate_stop_eq {s t : State} {o : IterOutcome} (h : iterate s = .ended o t) (ho : o.isStop = true)
    (hn : o ≠ .noSync) : t = s := by
  cases iterate_ended h with
  | needData | needHeader | needFrame => rfl
  | noSync => exact absurd rfl hn
  | junk | badLength | badChecksum | otherFrame | targetFrame => cases ho

theorem iterate_noSync_count {s t : State} (h : iterate s = .ended .noSync t) : 2 ≤ s.count ∧ t.count = 1 := by
  cases iterate_ended h with
  | noSync hc => exact ⟨hc, by rw [consumeBytes_count]; omega⟩

/-- Settles O44: one lemma for each outcome, above. -/
theorem continuesRemoveBytesAndStopsWait : Obligations.ContinuesRemoveBytesAndStopsWait := by
  intro s t o h
  refine ⟨?_, fun ho => (iterate_failed h ho).2, ?_, iterate_continue_count_lt h, iterate_stop_eq h⟩
  · rintro rfl
    exact iterate_junk h
  · rintro rfl
    exact iterate_frameOk h

/-- With room for the largest frame filled, no iteration waits for more of one (R91). -/
theorem iterate_waits_count_lt {s t : State} {o : IterOutcome} (h : iterate s = .ended o t)
    (ho : o = .needHeader ∨ o = .needFrame) : s.count < 8 + s.params.maxPayload := by
  rcases ho with rfl | rfl
  · cases iterate_ended h with
    | needHeader _ hc => omega
  · cases iterate_ended h with
    | needFrame _ _ hp hc => omega

theorem iterate_needData_count {s t : State} (h : iterate s = .ended .needData t) : s.count < 2 := by
  cases iterate_ended h with
  | needData hc => exact hc

/-- Settles O45: a full buffer holds the largest frame (R7), so its iteration is a continue or NO_SYNC. -/
theorem fullBufferNeverWaits : Obligations.FullBufferNeverWaits := by
  intro s t o hinv h
  have hwait : 8 + s.params.maxPayload ≤ s.count → o ≠ .needHeader ∧ o ≠ .needFrame := fun hc =>
    ⟨fun ho => Nat.not_lt.2 hc (iterate_waits_count_lt h (.inl ho)),
      fun ho => Nat.not_lt.2 hc (iterate_waits_count_lt h (.inr ho))⟩
  refine ⟨hwait, fun hfull => ?_⟩
  obtain ⟨hroom, -⟩ := hinv.params
  obtain ⟨hheader, hframe⟩ := hwait (by omega)
  cases o with
  | needData => have := iterate_needData_count h; omega
  | noSync => obtain ⟨h2, h1⟩ := iterate_noSync_count h; omega
  | needHeader => exact absurd rfl hheader
  | needFrame => exact absurd rfl hframe
  | junk | badLength | badChecksum | frameOk => exact iterate_continue_count_lt h rfl

/-- Where a sync pattern stands, `FindSync` finds that one or an earlier one. -/
theorem findSync_le_of_syncIn {s : State} {i : Nat} (h : SyncIn (window s) i) :
    ∃ j, findSync s = some j ∧ j ≤ i := by
  cases hf : findSync s with
  | none => exact absurd h (findSync_eq_none.1 hf i)
  | some j => exact ⟨j, rfl, Nat.not_lt.1 fun hlt => (findSync_eq_some.1 hf).2 i hlt h⟩

/-- Settles O47: `iterate_failed` removes the first two bytes only. -/
theorem failedCandidateKeepsLaterFrames : Obligations.FailedCandidateKeepsLaterFrames := by
  intro s t ht hcode
  obtain ⟨o, u, hi, rfl⟩ := exec_step_next ht
  have ho : o = .badLength ∨ o = .badChecksum := hcode.imp code_eq_badLength.1 code_eq_badChecksum.1
  have hwin : window (u.answered o.code.toNat) = (window s).drop 2 := (iterate_failed hi ho).1
  refine ⟨hwin, fun off h2 hs => ?_⟩
  have hsync : SyncIn (window (u.answered o.code.toNat)) (off - 2) := by
    rwa [hwin, syncIn_drop, Nat.add_sub_cancel' h2]
  exact ⟨hsync, findSync_le_of_syncIn hsync⟩

end Sys2Proof.Machine

/-! PROOFS. The checksum of 41_extractor.md: the sums' closed form (R85) and a flipped bit (R92). -/

namespace Sys2Proof.Machine

/-! The closed form of the sums (R85), by the recursion of the accumulation. -/

/-- The sum of the bytes, each as often as it is counted into `b`. -/
def weightedSum (l : List Byte) : Nat :=
  ((List.range l.length).map fun j => (l.length - j) * ((l[j]?).getD 0#8).toNat).sum

@[simp] theorem weightedSum_nil : weightedSum [] = 0 := rfl

@[simp] theorem weightedSum_cons (x : Byte) (l : List Byte) :
    weightedSum (x :: l) = (l.length + 1) * x.toNat + weightedSum l := by
  simp [weightedSum, List.range_succ_eq_map, Function.comp_def]

/-- The accumulation from any `a` and `b`: the first byte reaches `b` once for each byte of the list. -/
theorem foldl_checksumStep (l : List Byte) (a b : Byte) :
    l.foldl checksumStep (a, b) = (a + l.sum, b + l.length * a + weightedSum l) := by
  induction l generalizing a b with
  | nil => simp
  | cons x l ih =>
    have hx : ((x.toNat : Nat) : Byte) = x := by simp
    simp only [List.foldl_cons, checksumStep, ih, List.sum_cons, List.length_cons, weightedSum_cons]
    simp only [Nat.cast_add, Nat.cast_mul, Nat.cast_one, hx]
    exact Prod.ext (by ring) (by ring)

theorem fletcher8_eq (l : List Byte) : fletcher8 l = (l.sum, (weightedSum l : Byte)) := by
  simp [fletcher8, foldl_checksumStep]

theorem sum_toNat (l : List Byte) : l.sum.toNat = (l.map BitVec.toNat).sum % 256 := by
  induction l with
  | nil => rfl
  | cons x l ih =>
    simp only [List.sum_cons, List.map_cons, BitVec.toNat_add, ih]
    omega

/-- Settles O43: `fletcher8_eq`, as numbers. -/
theorem fletcherSumsHaveTheClosedForm : Obligations.FletcherSumsHaveTheClosedForm := by
  intro l
  rw [fletcher8_eq]
  exact ⟨sum_toNat l, BitVec.toNat_ofNat _ _⟩

/-! One changed byte (R92): among the checked bytes it changes `a`, in the trailer it changes what the sums are
compared with. -/

/-- Another byte at one place gives another sum, modulo 256 as well. -/
theorem fletcher8_modify_ne {l : List Byte} {i : Nat} {f : Byte → Byte} (hi : i < l.length) (hf : ∀ b, f b ≠ b) :
    fletcher8 (l.modify i f) ≠ fletcher8 l := by
  intro h
  have hsum : (l.modify i f).sum = l.sum := by simpa only [fletcher8_eq] using congrArg Prod.fst h
  rw [List.modify_eq_set_get f hi, List.sum_set', dif_pos hi, add_eq_left, neg_add_eq_zero] at hsum
  exact hf l[i] hsum.symm

/-- A frame as a window holds it: what the header says, and the sums against the two bytes after the payload. -/
theorem candidate_of_window {s : State} {cls id lo hi x y : Byte} {payload rest : List Byte}
    (hw : window s = Config.sync0 :: Config.sync1 :: cls :: id :: lo :: hi :: (payload ++ x :: y :: rest))
    (hlen : payload.length = lo.toNat + 256 * hi.toNat) (hlegal : payload.length ≤ s.params.maxPayload) :
    Candidate s cls id payload.length where
  sync := by simp [SyncIn, hw]
  cls := by simp [hw]
  id := by simp [hw]
  len := ⟨lo, hi, by simp [hw], by simp [hw], hlen⟩
  legal := hlegal
  whole := by
    have hc : s.count = (window s).length := (window_length s).symm
    rw [hc, hw]
    simp only [List.length_cons, List.length_append]
    omega

theorem trailerAgrees_iff_of_eq {l : List Byte} {s0 s1 cls id lo hi x y : Byte} {payload rest : List Byte}
    (hl : l = s0 :: s1 :: cls :: id :: lo :: hi :: (payload ++ x :: y :: rest)) :
    TrailerAgrees l payload.length ↔ fletcher8 (cls :: id :: lo :: hi :: payload) = (x, y) := by
  have hsums : sumsOf l payload.length = fletcher8 (cls :: id :: lo :: hi :: payload) := by
    simp [sumsOf, hl, Nat.add_comm 4]
  have hx : l[6 + payload.length]? = some x := by simp [hl, Nat.add_comm 6]
  have hy : l[7 + payload.length]? = some y := by
    simp [hl, Nat.add_comm 7]
  rw [TrailerAgrees, hsums, hx, hy, Prod.ext_iff, Option.some_inj, Option.some_inj, eq_comm, @eq_comm _ y]

theorem modify_append_of_lt {α : Type} {l : List α} {i : Nat} (h : i < l.length) (m : List α) (f : α → α) :
    (l ++ m).modify i f = l.modify i f ++ m := by
  induction l generalizing i with
  | nil => cases h
  | cons x l ih =>
    cases i with
    | zero => rfl
    | succ i => simp [ih (Nat.lt_of_succ_lt_succ h)]

theorem modify_append_length_add {α : Type} (l m : List α) (i : Nat) (f : α → α) :
    (l ++ m).modify (l.length + i) f = l ++ m.modify i f := by
  induction l with
  | nil => simp
  | cons x l ih => simp [Nat.succ_add, ih]

/-- A valid frame with one byte outside its sync pattern and length changed is a frame with wrong sums. -/
theorem validFrame_modify {f : Byte → Byte} (hf : ∀ b, f b ≠ b) (cls id : Byte) (payload : List Byte) {j : Nat}
    (hj : j < 8 + payload.length) (hplace : j = 2 ∨ j = 3 ∨ 6 ≤ j) :
    ∃ (cls' id' x y : Byte) (payload' : List Byte), payload'.length = payload.length ∧
      (validFrame cls id payload).modify j f =
        Config.sync0 :: Config.sync1 :: cls' :: id' :: BitVec.ofNat 8 payload.length ::
          BitVec.ofNat 8 (payload.length / 256) :: (payload' ++ [x, y]) ∧
      fletcher8 (cls' :: id' :: BitVec.ofNat 8 payload.length :: BitVec.ofNat 8 (payload.length / 256) :: payload') ≠
        (x, y) := by
  generalize hsums : fletcher8 (checkedBytes cls id payload) = sums
  have hframe : validFrame cls id payload = Config.sync0 :: Config.sync1 :: cls :: id ::
      BitVec.ofNat 8 payload.length :: BitVec.ofNat 8 (payload.length / 256) ::
        (payload ++ [sums.1, sums.2]) := by
    rw [← hsums]; rfl
  have hchecked (i : Nat) (hi : i < 4 + payload.length) :
      fletcher8 ((checkedBytes cls id payload).modify i f) ≠ sums :=
    hsums ▸ fletcher8_modify_ne (by simp only [checkedBytes, List.length_cons]; omega) hf
  rcases hplace with rfl | rfl | h6
  · exact ⟨f cls, id, sums.1, sums.2, payload, rfl, by rw [hframe]; rfl, hchecked 0 (by omega)⟩
  · exact ⟨cls, f id, sums.1, sums.2, payload, rfl, by rw [hframe]; rfl, hchecked 1 (by omega)⟩
  obtain ⟨i, rfl⟩ := Nat.exists_eq_add_of_le' h6
  rw [hframe]
  simp only [List.modify_succ_cons]
  by_cases hi : i < payload.length
  · rw [modify_append_of_lt hi]
    exact ⟨cls, id, sums.1, sums.2, payload.modify i f, List.length_modify .., rfl, hchecked (i + 4) (by omega)⟩
  obtain ⟨k, rfl⟩ := Nat.exists_eq_add_of_le (Nat.not_lt.1 hi)
  rw [modify_append_length_add]
  have hk : k = 0 ∨ k = 1 := by omega
  rcases hk with rfl | rfl
  · refine ⟨cls, id, f sums.1, sums.2, payload, rfl, rfl, fun h => ?_⟩
    exact hf sums.1 (congrArg Prod.fst (h.symm.trans hsums))
  · refine ⟨cls, id, sums.1, f sums.2, payload, rfl, rfl, fun h => ?_⟩
    exact hf sums.2 (congrArg Prod.snd (h.symm.trans hsums))

theorem flipBit_ne {k : Nat} (hk : k < 8) (b : Byte) : b ^^^ (1#8 <<< k) ≠ b := by
  intro h
  have hzero : 1#8 <<< k = 0#8 := by
    rwa [← BitVec.xor_left_inj b, BitVec.zero_xor, BitVec.xor_comm]
  interval_cases k <;> exact absurd hzero (by decide)

/-- The two length bytes hold any length of 16 bits (20_memory.md R37). -/
theorem lengthBytes_toNat {n : Nat} (h : n < 65536) :
    n = (BitVec.ofNat 8 n).toNat + 256 * (BitVec.ofNat 8 (n / 256)).toNat := by
  simp only [BitVec.toNat_ofNat]
  omega

/-- Settles O46: the changed frame is a candidate whose sums disagree, so its STEP is that of O37. -/
theorem oneFlippedBitFailsTheChecksum : Obligations.OneFlippedBitFailsTheChecksum := by
  intro s cls id payload rest j k hinv hlegal hj hplace hk hwin
  obtain ⟨hroom, hcap, -⟩ := hinv.params
  obtain ⟨cls', id', x, y, payload', hlen, hframe, hsums⟩ :=
    validFrame_modify (flipBit_ne hk) cls id payload hj hplace
  rw [hframe] at hwin
  rw [← hlen] at hwin hlegal hsums
  simp only [List.cons_append, List.append_assoc, List.nil_append] at hwin
  have hc := candidate_of_window hwin (lengthBytes_toNat (by omega)) hlegal
  have ht : ¬ TrailerAgrees (window s) payload'.length := mt (trailerAgrees_iff_of_eq hwin).1 hsums
  have hi := iterate_of_badChecksum hc ht
  exact ⟨_, exec_step_of_ended hi, rfl, (iterate_failed hi (.inr rfl)).1, rfl, frames_answered _ _⟩

end Sys2Proof.Machine

/-! PROOFS. RUN over a window that waits for more bytes (41_extractor.md R97). -/

namespace Sys2Proof.Machine

/-- What a window that waits for more bytes waits for (R77, R80, R83). -/
inductive AwaitsMore (s : State) : IterOutcome → Prop where
  | data (hc : s.count ≤ 1) : AwaitsMore s .needData
  | header (hs : SyncIn (window s) 0) (hc : s.count < 6) : AwaitsMore s .needHeader
  | frame (plen : Nat) (hs : SyncIn (window s) 0) (hp : PayloadLen (window s) plen)
      (hlegal : plen ≤ s.params.maxPayload) (hc : s.count < 8 + plen) : AwaitsMore s .needFrame

theorem AwaitsMore.congr {s t : State} {o : IterOutcome} (h : AwaitsMore s o) (hw : window t = window s)
    (hp : t.params = s.params) : AwaitsMore t o := by
  have hc : t.count = s.count := by simpa using congrArg List.length hw
  cases h with
  | data h => exact .data (by rwa [hc])
  | header hs h => exact .header (by rwa [hw]) (by rwa [hc])
  | frame plen hs hlen hlegal h => exact .frame plen (by rwa [hw]) (by rwa [hw]) (by rwa [hp]) (by rwa [hc])

theorem AwaitsMore.iterate_eq {s : State} {o : IterOutcome} (h : AwaitsMore s o) : iterate s = .ended o s := by
  cases h with
  | data hc => exact iterate_of_needData (by omega)
  | header hs hc => exact iterate_of_needHeader hs hc
  | frame plen hs hlen hlegal hc =>
    obtain ⟨h6, rfl⟩ := payloadLen_iff.1 hlen
    exact iterate_of_needFrame hs h6 hlegal hc

theorem AwaitsMore.isStop {s : State} {o : IterOutcome} (h : AwaitsMore s o) : o.isStop = true := by
  cases h <;> rfl

theorem AwaitsMore.code_mem {s : State} {o : IterOutcome} (h : AwaitsMore s o) : o.code.toNat ∈ [0, 3, 5] := by
  cases h <;> decide

/-- RUN over a window that waits runs its one iteration and changes only LAST_OUTCOME (R97). -/
theorem AwaitsMore.exec_run {s : State} {o : IterOutcome} {p : Pin} (h : AwaitsMore s o)
    (hcap : 1 ≤ s.params.iterCap) (hp : Pin.sample s.cancel = (false, p)) :
    exec .run s = .next
      { s with
        cancel := p, lastOutcome := BitVec.ofNat 32 o.code.toNat, runCount := none,
        out := s.out ++ [.response ⟨.ok, BitVec.ofNat 32 (2 ^ 16 * 1 + o.code.toNat)⟩] } := by
  have hturn : runTurn (s.setRunCount (some 0)) = .ended (.stop o) ((s.setCancel p).setRunCount (some 1)) := by
    have hi := (h.congr (t := (s.setRunCount (some 0)).setCancel p) rfl rfl).iterate_eq
    simp only [runTurn, sampleCancel_fst, sampleCancel_snd, State.setRunCount_cancel, hp, hi, h.isStop,
      Bool.false_eq_true, if_false, if_true]
    rfl
  have hloop : runLoop s = .ended (.stop o) ((s.setCancel p).setRunCount (some 1)) := by
    obtain ⟨n, hn⟩ := Nat.exists_eq_add_of_le' hcap
    rw [runLoop, hn, runTurns, hturn]
  have hexec : exec .run s = execRun s := rfl
  rw [hexec, execRun, hloop]
  simp only [finishRun_eq, outcomeWord_eq_ofNat, packRun_eq_ofNat]
  rfl

/-- A stop leaves a window that waits, for what the outcome says or, after NO_SYNC, for data. -/
theorem awaitsMore_of_stop {s t : State} {o : IterOutcome} (h : iterate s = .ended o t) (ho : o.isStop = true) :
    AwaitsMore t o ∨ o = .noSync ∧ t.count ≤ 1 := by
  cases iterate_ended h with
  | needData hc => exact .inl (.data (by omega))
  | noSync => exact .inr ⟨rfl, (iterate_noSync_count h).2.le⟩
  | needHeader hs hc => exact .inl (.header hs hc)
  | needFrame hs h6 hp hc => exact .inl (.frame _ hs (payloadLen_iff.2 ⟨h6, rfl⟩) hp hc)
  | junk | badLength | badChecksum | otherFrame | targetFrame => cases ho

/-- A RUN's loop that ends does so by its last turn. -/
theorem runTurn_of_runTurns_ended {n : Nat} {s t : State} {r : RunReason} (h : runTurns n s = .ended r t) :
    ∃ v, runTurn v = .ended r t := by
  induction n generalizing s with
  | zero => cases h
  | succ n ih =>
    cases hr : runTurn s with
    | ended r' t' => rw [runTurns, hr] at h; exact ⟨s, hr.trans h⟩
    | goesOn u => rw [runTurns, hr] at h; exact ih h
    | hung u => rw [runTurns, hr] at h; cases h

/-- The reason of a RUN that was not cancelled, and the window it leaves (R95, R97). -/
inductive RunLeft (t : State) : RunReason → Prop where
  | waits (o : IterOutcome) (h : AwaitsMore t o) : RunLeft t (.stop o)
  | noSync (hc : t.count ≤ 1) : RunLeft t (.stop .noSync)
  | capped (hc : t.count ≤ 1) : RunLeft t .capExceeded

theorem exec_run_left {s t : State} (h : exec .run s = .next t) :
    ∃ r : RunReason, t.lastOutcome = BitVec.ofNat 32 r.code.toNat ∧ (r = .cancelled ∨ RunLeft t r) := by
  obtain ⟨r, u, hfin, hu⟩ := execRun_next h
  rw [finishRun_eq, outcomeWord_eq_ofNat] at hfin
  obtain rfl := Host.Outcome.next.inj hfin
  refine ⟨r, rfl, ?_⟩
  rcases hu with hloop | ⟨v, -, hcap⟩
  · obtain ⟨v, hturn⟩ := runTurn_of_runTurns_ended hloop
    have hcase := runTurn_case v
    rw [hturn] at hcase
    cases hcase with
    | cancelled => exact .inl rfl
    | stop o w _ hi ho =>
      refine .inr ?_
      rcases awaitsMore_of_stop hi ho with hwait | ⟨rfl, hc⟩
      · exact .waits o (hwait.congr rfl rfl)
      · exact .noSync hc
  · rcases capBoundary_cases v with ⟨-, hb⟩ | ⟨-, hb⟩
    · rw [hb] at hcap
      cases hcap
      exact .inl rfl
    · rw [hb] at hcap
      cases hcap
      exact .inr (.capped (Nat.zero_le 1))

theorem RunLeft.awaitsMore {t : State} {r : RunReason} (h : RunLeft t r) : ∃ o, AwaitsMore t o := by
  cases h with
  | waits o h => exact ⟨o, h⟩
  | noSync hc | capped hc => exact ⟨.needData, .data hc⟩

/-- Settles O53: the first RUN leaves a window that waits (`exec_run_left`), and `AwaitsMore.exec_run` is the second. -/
theorem secondRunIsQuiescent : Obligations.SecondRunIsQuiescent := by
  intro s t ht hnot
  obtain ⟨r, hcode, hr⟩ := exec_run_left ht
  have hleft : RunLeft t r := hr.resolve_left fun hc => hnot (by rw [hcode, hc]; rfl)
  constructor
  · cases hleft with
    | waits o hwait =>
      cases hwait with
      | data hc => exact .inl ⟨.inl hcode, hc⟩
      | header hs hc => exact .inr (.inl ⟨hcode, hs, hc⟩)
      | frame plen hs hlen hlegal hc => exact .inr (.inr ⟨hcode, hs, plen, hlen, hlegal, hc⟩)
    | noSync hc => exact .inl ⟨.inr (.inl hcode), hc⟩
    | capped hc => exact .inl ⟨.inr (.inr hcode), hc⟩
  · intro u p hwin hpar hcap hp
    obtain ⟨o, hwait⟩ := hleft.awaitsMore
    exact ⟨_, hwait.code_mem, (hwait.congr hwin hpar).exec_run hcap hp⟩

end Sys2Proof.Machine

/-! PROOFS. The statements of 42_checksum_control.md: CKSUM as CKRST and CKFEEDs from the port (R101), and RDREG
(R103). -/

namespace Sys2Proof.Machine

/-! CK holding a pair of sums (10_state.md R25): its halves, and as a number the two bytes of a trailer. -/

theorem packCk_eq_sumsWord (sums : Byte × Byte) : packCk sums.1 sums.2 = sumsWord sums :=
  packCk_eq_ofNat sums.1 sums.2

theorem ckA_sumsWord (sums : Byte × Byte) : ckA (sumsWord sums) = sums.1 := by
  rw [← packCk_eq_sumsWord, ckA_packCk]

theorem ckB_sumsWord (sums : Byte × Byte) : ckB (sumsWord sums) = sums.2 := by
  rw [← packCk_eq_sumsWord, ckB_packCk]

theorem ckA_eq_ofNat (w : Word) : ckA w = BitVec.ofNat 8 w.toNat := by
  apply BitVec.eq_of_toNat_eq
  simp [ckA]

theorem ckB_eq_ofNat (w : Word) : ckB w = BitVec.ofNat 8 (w.toNat / 256) := by
  apply BitVec.eq_of_toNat_eq
  simp [ckB, Nat.shiftRight_eq_div_pow]

/-- A valid frame ends with the low and the high byte of its checked bytes' sums as CK holds them (20_memory.md R38). -/
theorem validFrame_eq_sumsWord (cls id : Byte) (payload : List Byte) :
    validFrame cls id payload =
      0xB5#8 :: 0x62#8 :: checkedBytes cls id payload ++
        [BitVec.ofNat 8 (sumsWord (fletcher8 (checkedBytes cls id payload))).toNat,
          BitVec.ofNat 8 ((sumsWord (fletcher8 (checkedBytes cls id payload))).toNat / 256)] := by
  rw [← ckA_eq_ofNat, ← ckB_eq_ofNat, ckA_sumsWord, ckB_sumsWord]
  rfl

/-! CKRST and CKFEED from the port (R99, R100). -/

theorem decode_encode_ckrst : decode (encode .ckrst) = .ok .ckrst := by decide

theorem decode_encode_ckfeed (x : Byte) : decode (encode (.ckfeed x)) = .ok (.ckfeed x) := by
  simp [decode, formatOf, reservedClear, commandOf, Instr.wellFormed]

theorem step_ckrst {s : State} {rest : List HostInput} (hin : s.inputs = .command (encode .ckrst) :: rest) :
    ∃ t, step s = .next t ∧ t.inputs = rest ∧ t.ck = sumsWord (fletcher8 []) :=
  ⟨_, step_legal hin decode_encode_ckrst, rfl, rfl⟩

/-- A CKFEED is one accumulation on the sums CK holds. -/
theorem exec_ckfeed {s : State} {sums : Byte × Byte} (hck : s.ck = sumsWord sums) (x : Byte) :
    exec (.ckfeed x) s =
      .next ((s.setCk (sumsWord (checksumStep sums x))).emit (.response ⟨.ok, sumsWord (checksumStep sums x)⟩)) := by
  have hacc : (ckA s.ck, ckB s.ck) = sums := by rw [hck, ckA_sumsWord, ckB_sumsWord]
  rw [← packCk_eq_sumsWord, ← hacc]
  rfl

theorem step_ckfeed {s : State} {fed : List Byte} {x : Byte} {rest : List HostInput}
    (hck : s.ck = sumsWord (fletcher8 fed)) (hin : s.inputs = .command (encode (.ckfeed x)) :: rest) :
    ∃ t, step s = .next t ∧ t.inputs = rest ∧ t.ck = sumsWord (fletcher8 (fed ++ [x])) := by
  rw [fletcher8_append_one]
  exact ⟨_, (step_legal hin (decode_encode_ckfeed x)).trans (exec_ckfeed (s := s.setInputs rest) hck x), rfl, rfl⟩

/-- CKFEEDs go on from the sums of the bytes fed before them, one byte to a step. -/
theorem runs_ckfeeds (bytes : List Byte) {s : State} {fed : List Byte} {rest : List HostInput}
    (hck : s.ck = sumsWord (fletcher8 fed)) (hin : s.inputs = issue (bytes.map .ckfeed) ++ rest) :
    ∃ t, runs bytes.length s = .next t ∧ t.inputs = rest ∧ t.ck = sumsWord (fletcher8 (fed ++ bytes)) := by
  induction bytes generalizing s fed with
  | nil => exact ⟨s, runs_zero s, hin, by rw [hck, List.append_nil]⟩
  | cons x bytes ih =>
    obtain ⟨u, hstep, huin, huck⟩ := step_ckfeed hck hin
    obtain ⟨t, hruns, hrest, hsums⟩ := ih huck huin
    exact ⟨t, (runs_succ_of_next _ hstep).trans hruns, hrest, by rw [List.append_cons, hsums]⟩

/-- Settles O58: CKRST leaves the sums of no bytes, and `runs_ckfeeds` feeds the rest. -/
theorem cksumLeavesTheFletcherSums : Obligations.CksumLeavesTheFletcherSums := by
  intro s bytes rest hin
  obtain ⟨u, hstep, huin, huck⟩ := step_ckrst hin
  obtain ⟨t, hruns, hrest, hsums⟩ := runs_ckfeeds bytes huck huin
  refine ⟨t, (runs_succ_of_next _ hstep).trans hruns, hrest, hsums, fun cls id payload hbytes => ?_⟩
  rw [hsums, List.nil_append, hbytes]
  exact validFrame_eq_sumsWord cls id payload

/-! RDREG (R103) answers the register its index selects. -/

theorem exec_rdreg {ridx : BitVec 4} {r : RegName} (h : registerOperand ridx = some r) (s : State) :
    exec (.rdreg ridx) s = .next (s.emit (.response ⟨.ok, readRegister r s⟩)) := by
  simp only [exec, execRdreg, h, respond_eq]

/-- TARGET's three fields, packed (10_state.md R29). -/
theorem targetWord_eq : targetWord = 0x005C0701#32 := by decide

/-- A word of RDREG's opcode with a 1 in a reserved bit or a reserved index is on R56's list. -/
theorem illegalWord_of_rdreg {w : Word} (hop : w.toNat / 2 ^ 28 = 0xA)
    (h : w.toNat % 2 ^ 28 / 2 ^ 4 ≠ 0 ∨ 10 ≤ w.toNat % 2 ^ 4) : IllegalWord w := by
  have hidx : w.toNat % 2 ^ 28 % 2 ^ 4 = w.toNat % 2 ^ 4 := Nat.mod_mod_of_dvd _ (by decide)
  rw [← hidx] at h
  exact .inr (.inr (.inr (.inr ⟨hop, h⟩)))

/-- Settles O59: one index after the other selects its register; the reserved words are illegal by O3. -/
theorem rdregAnswersTheRegister : Obligations.RdregAnswersTheRegister := by
  refine ⟨fun s r v hrv => ?_, fun w hop h => (everyWordIsOneCommandOrIllegal w).1 (illegalWord_of_rdreg hop h)⟩
  rcases hrv with ⟨rfl, rfl⟩ | ⟨rfl, rfl⟩ | ⟨rfl, rfl⟩ | ⟨rfl, rfl⟩ | ⟨rfl, rfl⟩ | ⟨rfl, rfl⟩ | ⟨rfl, rfl⟩ |
    ⟨rfl, rfl⟩ | ⟨rfl, rfl⟩ | ⟨rfl, rfl⟩
  · exact exec_rdreg (r := .capacity) rfl s
  · exact exec_rdreg (r := .available) rfl s
  · exact exec_rdreg (r := .validCount) rfl s
  · exact exec_rdreg (r := .lastOutcome) rfl s
  · exact exec_rdreg (r := .lastFrame) rfl s
  · exact exec_rdreg (r := .ck) rfl s
  · exact exec_rdreg (r := .err) rfl s
  · exact exec_rdreg (r := .maxpay) rfl s
  · exact exec_rdreg (r := .itercap) rfl s
  · rw [← targetWord_eq]
    exact exec_rdreg (r := .target) rfl s

end Sys2Proof.Machine

/-! PROOFS. Every command word decodes to its command and back (30_encoding.md §2, §3), and the bytes of a word on a
byte-wide link (20_memory.md R39). -/

namespace Sys2Proof.Machine

/-! From a command to its word and back. -/

/-- A legal command's word passes the three checks of R55 and names the command again. -/
theorem decode_encode {i : Instr} (h : i.wellFormed = true) : decode (encode i) = .ok i := by
  cases i with
  | append b => exact decode_encode_append b
  | ckrst => exact decode_encode_ckrst
  | ckfeed x => exact decode_encode_ckfeed x
  | nop | findsync | clear | step | run => decide
  | peek n | consume n => simp [decode, formatOf, reservedClear, commandOf, Instr.wellFormed]
  | rdreg r => simp [decode, formatOf, reservedClear, commandOf, h]

/-- Settles O1: `decode_encode`, one case for each command. -/
theorem decodeOfEncodeIsTheInstruction : Obligations.DecodeOfEncodeIsTheInstruction := fun _ => decode_encode

/-! From a word to its command and back: a word whose reserved bits are 0 is its opcode, zeros and its operand. -/

theorem eq_of_reservedClear_z {w : Word} (h : reservedClear .z w = true) : w = opcodeOf w ++ 0#28 := by
  rw [← eq_of_beq h, formatZ_eta]

theorem eq_of_reservedClear_b {w : Word} (h : reservedClear .b w = true) :
    w = opcodeOf w ++ 0#20 ++ imm8Of w := by
  rw [← eq_of_beq h, formatB_eta]

theorem eq_of_reservedClear_h {w : Word} (h : reservedClear .h w = true) :
    w = opcodeOf w ++ 0#12 ++ imm16Of w := by
  rw [← eq_of_beq h, formatH_eta]

theorem eq_of_reservedClear_r {w : Word} (h : reservedClear .r w = true) :
    w = opcodeOf w ++ 0#24 ++ ridxOf w := by
  rw [← eq_of_beq h, formatR_eta]

/-! The opcodes of each format, as bits. -/

theorem opcode_of_formatZ {op : BitVec 4} :
    formatOf op = some .z → op = 0#4 ∨ op = 4#4 ∨ op = 5#4 ∨ op = 6#4 ∨ op = 7#4 ∨ op = 8#4 := by
  revert op; decide

theorem opcode_of_formatB {op : BitVec 4} : formatOf op = some .b → op = 1#4 ∨ op = 9#4 := by
  revert op; decide

theorem opcode_of_formatH {op : BitVec 4} : formatOf op = some .h → op = 2#4 ∨ op = 3#4 := by
  revert op; decide

theorem opcode_of_formatR {op : BitVec 4} : formatOf op = some .r → op = 10#4 := by
  revert op; decide

/-- The command a word's opcode names, encoded again, is the word, as far as its reserved bits are 0. -/
theorem encode_commandOf {w : Word} {f : Format} {i : Instr} (hf : formatOf (opcodeOf w) = some f)
    (hr : reservedClear f w = true) (hi : commandOf w = some i) : encode i = w := by
  unfold commandOf at hi
  cases f with
  | z =>
    rw [eq_of_reservedClear_z hr]
    rcases opcode_of_formatZ hf with hop | hop | hop | hop | hop | hop <;> rw [hop] at hi ⊢ <;> cases hi <;> rfl
  | b =>
    rw [eq_of_reservedClear_b hr]
    rcases opcode_of_formatB hf with hop | hop <;> rw [hop] at hi ⊢ <;> cases hi <;> rfl
  | h =>
    rw [eq_of_reservedClear_h hr]
    rcases opcode_of_formatH hf with hop | hop <;> rw [hop] at hi ⊢ <;> cases hi <;> rfl
  | r =>
    rw [eq_of_reservedClear_r hr]
    rw [opcode_of_formatR hf] at hi ⊢
    cases hi
    rfl

/-- What a word that decodes has passed: the three checks of R55. -/
theorem decode_eq_ok {w : Word} {i : Instr} (h : decode w = .ok i) :
    ∃ f, formatOf (opcodeOf w) = some f ∧ commandOf w = some i ∧ reservedClear f w = true ∧
      i.wellFormed = true := by
  unfold decode at h
  split at h
  · next f j hf hj =>
    split at h
    · next hr =>
      split at h
      · next hw => cases h; exact ⟨f, hf, hj, hr, hw⟩
      · cases h
    · cases h
  · cases h

/-- Settles O2: the checks passed are what `encode_commandOf` needs. -/
theorem decodedWordIsTheEncodingOfItsCommand : Obligations.DecodedWordIsTheEncodingOfItsCommand := by
  intro w i h
  obtain ⟨f, hf, hi, hr, hw⟩ := decode_eq_ok h
  exact ⟨hw, encode_commandOf hf hr hi⟩

/-! The byte-wide link (20_memory.md R39). -/

theorem wordOfBytes_toNat (b0 b1 b2 b3 : Byte) :
    (wordOfBytes b0 b1 b2 b3).toNat =
      b0.toNat + 2 ^ 8 * b1.toNat + 2 ^ 16 * b2.toNat + 2 ^ 24 * b3.toNat := by
  have h0 := b0.isLt
  have h1 := b1.isLt
  have h2 := b2.isLt
  simp only [wordOfBytes, BitVec.toNat_append]
  rw [← Nat.shiftLeft_add_eq_or_of_lt h2, ← Nat.shiftLeft_add_eq_or_of_lt h1, ← Nat.shiftLeft_add_eq_or_of_lt h0]
  simp only [Nat.shiftLeft_eq]
  omega

theorem bytesOfWord_wordOfBytes (b0 b1 b2 b3 : Byte) : bytesOfWord (wordOfBytes b0 b1 b2 b3) = [b0, b1, b2, b3] := by
  have h0 := b0.isLt
  have h1 := b1.isLt
  have h2 := b2.isLt
  have h3 := b3.isLt
  simp only [bytesOfWord, List.cons.injEq, and_true, ← BitVec.toNat_inj, field_toNat, wordOfBytes_toNat]
  omega

theorem decodeBytes_of_decode {b0 b1 b2 b3 : Byte} {i : Instr} (h : decode (wordOfBytes b0 b1 b2 b3) = .ok i)
    (rest : List Byte) : decodeBytes (b0 :: b1 :: b2 :: b3 :: rest) = .ok (i, rest) := by
  rw [decodeBytes, h]

/-- Settles O5: the word's value by place, its bytes again, and the link's decoding of the first word. -/
theorem byteLinkCarriesLeastSignificantByteFirst : Obligations.ByteLinkCarriesLeastSignificantByteFirst :=
  fun b0 b1 b2 b3 rest =>
    ⟨wordOfBytes_toNat b0 b1 b2 b3, bytesOfWord_wordOfBytes b0 b1 b2 b3, fun _ h => decodeBytes_of_decode h rest⟩

/-! The next command word on the port (30_encoding.md R50, R51). -/

/-- Settles O8: `step_legal`. -/
theorem stepRunsTheDecodedCommand : Obligations.StepRunsTheDecodedCommand :=
  fun _ _ _ _ hin hd => step_legal hin hd

theorem tableWord_toNat (w : Word) : tableWord 32 w.toNat = w := by
  rw [tableWord, Nat.mod_eq_of_lt w.isLt, BitVec.ofNat_toNat, BitVec.setWidth_eq]

/-- Settles O9: the word offered is the command's, and it decodes to the command. -/
theorem offeredCommandRunsNext : Obligations.OfferedCommandRunsNext := by
  intro s i h
  have hin : (s.withFetchWord 32 (encode i).toNat).inputs = .command (encode i) :: s.inputs := by
    rw [State.withFetchWord, tableWord_toNat, offerWord, State.setInputs_inputs]
  exact step_legal hin (decode_encode h)

/-- Settles O10: an illegal word decodes to nothing (O3), and the step raises Illegal. -/
theorem illegalWordSetsOnlyErrIll : Obligations.IllegalWordSetsOnlyErrIll := by
  intro s w rest hin hw
  obtain ⟨e, he⟩ := (everyWordIsOneCommandOrIllegal w).1 hw
  exact step_illegal hin he

end Sys2Proof.Machine

/-! PROOFS. The invariant (10_state.md §3, §4, §6), what the extractor keeps of it, and every step. -/

namespace Sys2Proof.Machine

/-! What an iteration writes to CK: nothing, or a pair of sums (41_extractor.md R86). -/

theorem iterate_ck {s t : State} {o : IterOutcome} (h : iterate s = .ended o t) :
    t.ck = s.ck ∨ ∃ a b, t.ck = packCk a b := by
  cases iterate_ended h with
  | needData | noSync | junk | needHeader | badLength | needFrame => exact .inl rfl
  | badChecksum | otherFrame | targetFrame => exact .inr ⟨_, _, rfl⟩

/-- An iteration between commands or, inside a RUN, with `k` left out, keeps the invariant. -/
theorem State.Inv.iterate {s t : State} {o : IterOutcome} (h : (s.setRunCount none).Inv)
    (hi : iterate s = .ended o t) : (t.setRunCount none).Inv := by
  have hf := iterate_frame hi
  refine h.congr hf.params hf.buf ?_ ?_ ?_ ?_ ?_ rfl
  · simpa [hf.params] using hf.start h.start
  · simpa [hf.params] using hf.count.trans h.count
  · simpa [hf.lastOutcome] using h.outcome
  · rcases iterate_ck hi with hck | ⟨a, b, hck⟩
    · simpa [hck] using h.ckReserved
    · simp [hck]
  · simpa [hf.err] using h.errReserved

theorem State.Inv.setRunCount_none {s : State} (h : s.Inv) : (s.setRunCount none).Inv :=
  h.congr rfl rfl h.start h.count h.outcome h.ckReserved h.errReserved rfl

/-- Recording a legal code in LAST_OUTCOME keeps the invariant. -/
theorem State.Inv.setLastOutcome {s : State} (h : s.Inv) {w : Word} (hw : legalOutcome w = true) :
    (s.setLastOutcome w).Inv :=
  h.congr rfl rfl h.start h.count hw h.ckReserved h.errReserved h.idle

theorem State.Inv.setCk {s : State} (h : s.Inv) {w : Word} (hw : w.extractLsb' 16 16 = 0#16) : (s.setCk w).Inv :=
  h.congr rfl rfl h.start h.count h.outcome hw h.errReserved h.idle

theorem State.Inv.execStep {s t : State} (h : s.Inv) (ht : execStep s = .next t) : t.Inv := by
  unfold Machine.execStep at ht
  split at ht
  · next o u hi =>
    cases ht
    have hu := State.Inv.iterate h.setRunCount_none hi
    have hidle : u.runCount = none := (iterate_frame hi).runCount.trans h.idle
    have hu : u.Inv := by rwa [← hidle] at hu
    exact (hu.setLastOutcome (legalOutcome_iter o)).emit _
  · cases ht

theorem State.Inv.execRun {s t : State} (h : s.Inv) (ht : execRun s = .next t) : t.Inv := by
  obtain ⟨r, u, hfin, hu⟩ := execRun_frame (fun u => (u.setRunCount none).Inv)
    (fun u _ hu => hu.congr (s := u.setRunCount none) rfl rfl hu.start hu.count hu.outcome hu.ckReserved
      hu.errReserved rfl)
    (fun _ _ hu => hu) (fun _ _ _ hu hi => hu.iterate hi) (fun _ hu => hu.clearBuffer) h.setRunCount_none ht
  cases hfin
  exact (hu.setLastOutcome (legalOutcome_run r)).emit _

/-- Every command keeps the invariant, the ill-formed RDREG included. -/
theorem State.Inv.exec {i : Instr} {s t : State} (h : s.Inv) (ht : exec i s = .next t) : t.Inv := by
  cases i with
  | nop | findsync => cases ht; exact h.emit _
  | append b => cases ht; exact (h.appendByte b).emit _
  | peek n =>
    simp only [Machine.exec, execPeek] at ht
    split at ht
    · cases ht; exact h.emit _
    · exact h.raiseOutOfRange ht
  | consume n => cases ht; exact (h.consumeBytes _).emit _
  | clear => cases ht; exact h.clearBuffer.emit _
  | step => exact h.execStep ht
  | run => exact h.execRun ht
  | ckrst => cases ht; exact (h.setCk rfl).emit _
  | ckfeed x => cases ht; exact (h.setCk (packCk_reserved _ _)).emit _
  | rdreg r =>
    simp only [Machine.exec, execRdreg] at ht
    split at ht
    · cases ht; exact h.emit _
    · exact h.raiseIllegal ht

/-! What the extractor keeps, however far it has come. -/

/-- What iterations, looks at `cancel`, counting and the cap's clearing keep of the state `s` they started in: the
build parameters, the inputs, ERR and the bytes of `buf`; records at most are added to the output history, and the
window loses bytes at its front only. -/
structure Extracted (s u : State) : Prop where
  params : u.params = s.params
  inputs : u.inputs = s.inputs
  err : u.err = s.err
  buf : u.buf = s.buf
  out : ∃ fs : List FrameOut, u.out = s.out ++ fs.map .frame
  window : ∃ n, window u = (window s).drop n

theorem Extracted.refl (s : State) : Extracted s s := ⟨rfl, rfl, rfl, rfl, ⟨[], by simp⟩, ⟨0, rfl⟩⟩

theorem Extracted.trans {s t u : State} (h : Extracted s t) (h' : Extracted t u) : Extracted s u where
  params := h'.params.trans h.params
  inputs := h'.inputs.trans h.inputs
  err := h'.err.trans h.err
  buf := h'.buf.trans h.buf
  out := by
    obtain ⟨fs, hfs⟩ := h.out
    obtain ⟨fs', hfs'⟩ := h'.out
    exact ⟨fs ++ fs', by simp [hfs, hfs']⟩
  window := by
    obtain ⟨n, hn⟩ := h.window
    obtain ⟨n', hn'⟩ := h'.window
    exact ⟨n + n', by rw [hn', hn, List.drop_drop]⟩

/-- Writes that leave alone all that `Extracted` speaks of. -/
theorem Extracted.of_eq {s u : State} (hp : u.params = s.params) (hi : u.inputs = s.inputs) (he : u.err = s.err)
    (hb : u.buf = s.buf) (ho : u.out = s.out) (hw : Machine.window u = Machine.window s) : Extracted s u :=
  ⟨hp, hi, he, hb, ⟨[], by simp [ho]⟩, ⟨0, hw⟩⟩

theorem extracted_setCancel (s : State) (p : Pin) : Extracted s (s.setCancel p) := .of_eq rfl rfl rfl rfl rfl rfl

theorem extracted_setRunCount (s : State) (k : Option Nat) : Extracted s (s.setRunCount k) :=
  .of_eq rfl rfl rfl rfl rfl rfl

theorem extracted_clearBuffer (s : State) : Extracted s (clearBuffer s) :=
  ⟨rfl, rfl, rfl, rfl, ⟨[], by simp⟩, ⟨s.count, by simp⟩⟩

theorem extracted_of_ended {s u : State} {o : IterOutcome} (h : iterate s = .ended o u) : Extracted s u := by
  have hf := iterate_frame h
  refine ⟨hf.params, hf.inputs, hf.err, hf.buf, ?_, hf.window⟩
  rcases iterate_out h with hout | ⟨f, hout⟩
  · exact ⟨[], by simp [hout]⟩
  · exact ⟨[f], hout⟩

theorem extracted_of_hung {s u : State} (h : iterate s = .hung u) : Extracted s u := by
  cases iterate_hung h
  exact .of_eq rfl rfl rfl rfl rfl rfl

theorem extracted_iterate (s : State) : Extracted s (iterate s).state := by
  cases h : iterate s with
  | ended o u => exact extracted_of_ended h
  | hung u => exact extracted_of_hung h

theorem extracted_runTurns (n : Nat) (s : State) : Extracted s (runTurns n s).state :=
  runTurns_keeps (Extracted s) (fun _ _ h => h.trans (extracted_setCancel _ _))
    (fun _ _ h => h.trans (extracted_setRunCount _ _)) (fun _ _ _ h hi => h.trans (extracted_of_ended hi))
    (fun _ _ h hi => h.trans (extracted_of_hung hi)) n s (.refl s)

/-- A RUN that responds ends what its loop, the cap's clearing included, has extracted. -/
theorem exec_run_next {s t : State} (h : exec .run s = .next t) :
    ∃ r u, finishRun r u = .next t ∧ Extracted s u :=
  execRun_frame (Extracted s) (fun _ _ h => h.trans (extracted_setCancel _ _))
    (fun _ _ h => h.trans (extracted_setRunCount _ _)) (fun _ _ _ h hi => h.trans (extracted_of_ended hi))
    (fun _ h => h.trans (extracted_clearBuffer _)) (.refl s) h

theorem progressOf_step (done : Nat) (s : State) :
    progressOf .step done s = if done = 0 then s else (iterate s).state := rfl

theorem progressOf_run (done : Nat) (s : State) :
    progressOf .run done s = (runTurns (min done s.params.iterCap) (s.setRunCount (some 0))).state := rfl

/-- However far a command had come when `rst` rose, it had done what the extractor does at most. -/
theorem extracted_progressOf (i : Instr) (done : Nat) (s : State) : Extracted s (progressOf i done s) := by
  cases i with
  | step =>
    rw [progressOf_step]
    split
    · exact .refl s
    · exact extracted_iterate s
  | run => exact (extracted_setRunCount s (some 0)).trans (extracted_runTurns _ _)
  | nop | append | peek | consume | findsync | clear | ckrst | ckfeed | rdreg => exact .refl s

/-! Resets need of the state only that the build parameters are within R7's bounds. -/

theorem inv_afterReset {s : State} (h : s.params.Valid) : (afterReset s).Inv where
  params := h
  start := by
    have := h.1
    simp only [afterReset_start, afterReset_params]
    omega
  count := Nat.zero_le _
  canonical := rfl
  listed := rfl
  outcome := rfl
  ckReserved := (by decide : (0#32).extractLsb' 16 16 = 0#16)
  errReserved := (by decide : (0#32).extractLsb' 2 30 = 0#30)
  idle := rfl

/-- Settles O15: the reset state is what a reset leaves, and the document's build parameters are in R7's bounds. -/
theorem resetStateMeetsTheInvariant : Obligations.ResetStateMeetsTheInvariant :=
  inv_afterReset (s := State.reset) (by decide)

/-- The work of a word's command when `rst` rises: none for an illegal word (70_reset_and_hazards.md R119). -/
def progressOfWord (w : Word) (done : Nat) (s : State) : State :=
  match decode w with
  | .ok i => progressOf i done s
  | .error _ => s

theorem abandon_eq (w : Word) (done : Nat) (s : State) :
    abandon w done s = afterReset (progressOfWord w done s) := by
  unfold abandon progressOfWord
  cases decode w <;> rfl

theorem extracted_progressOfWord (w : Word) (done : Nat) (s : State) : Extracted s (progressOfWord w done s) := by
  unfold progressOfWord
  cases decode w with
  | ok i => exact extracted_progressOf i done s
  | error e => exact .refl s

/-- Settles O16, by the host's next input: nothing, a legal or an illegal word, a reset, a command cut short by one. -/
theorem everyStepKeepsTheInvariant : Obligations.EveryStepKeepsTheInvariant := by
  intro s t h ht
  cases hin : s.inputs with
  | nil =>
    rw [step_idle hin] at ht
    cases ht
    exact h
  | cons e rest =>
    have h' := h.setInputs rest
    cases e with
    | command w =>
      cases hd : decode w with
      | ok i => exact h'.exec ((step_legal hin hd).symm.trans ht)
      | error e => exact h'.raiseIllegal ((step_illegal hin hd).symm.trans ht)
    | reset =>
      rw [step_reset hin] at ht
      cases ht
      exact inv_afterReset h.params
    | interrupted w done =>
      rw [step_interrupted hin] at ht
      cases ht
      rw [abandon_eq]
      exact inv_afterReset ((extracted_progressOfWord w done (s.setInputs rest)).params ▸ h.params)

end Sys2Proof.Machine

/-! PROOFS. `start` and the bytes of `buf` outside the window change nothing that is observed (10_state.md R17, R19,
R32): each operation of the model is taken through `SameView`, in the order of the definitions. -/

namespace Sys2Proof.Machine

/-! The updates that leave the buffer alone. -/

section
variable {s t : State}

theorem SameView.setValidCount (h : SameView s t) (w : Word) : SameView (s.setValidCount w) (t.setValidCount w) :=
  { h with validCount := rfl }

theorem SameView.setLastOutcome (h : SameView s t) (w : Word) : SameView (s.setLastOutcome w) (t.setLastOutcome w) :=
  { h with lastOutcome := rfl }

theorem SameView.setLastFrame (h : SameView s t) (w : Word) : SameView (s.setLastFrame w) (t.setLastFrame w) :=
  { h with lastFrame := rfl }

theorem SameView.setCk (h : SameView s t) (w : Word) : SameView (s.setCk w) (t.setCk w) :=
  { h with ck := rfl }

theorem SameView.setErr (h : SameView s t) (w : Word) : SameView (s.setErr w) (t.setErr w) :=
  { h with err := rfl }

theorem SameView.setRunCount (h : SameView s t) (k : Option Nat) : SameView (s.setRunCount k) (t.setRunCount k) :=
  { h with runCount := rfl }

theorem SameView.setCancel (h : SameView s t) (p : Pin) : SameView (s.setCancel p) (t.setCancel p) :=
  { h with cancel := rfl }

theorem SameView.setFoReady (h : SameView s t) (p : Pin) : SameView (s.setFoReady p) (t.setFoReady p) :=
  { h with foReady := rfl }

theorem SameView.setInputs (h : SameView s t) (l : List HostInput) : SameView (s.setInputs l) (t.setInputs l) :=
  { h with inputs := rfl }

theorem SameView.emit (h : SameView s t) (e : OutEvent) : SameView (s.emit e) (t.emit e) :=
  { h with out := by simp [h.out] }

/-! The buffer primitives and what they read. -/

theorem SameView.consumeBytes (h : SameView s t) (n : Nat) : SameView (consumeBytes n s) (consumeBytes n t) :=
  { h with
    count := by simp [h.count]
    window := by simp [h.window] }

theorem SameView.clearBuffer (h : SameView s t) : SameView (clearBuffer s) (clearBuffer t) :=
  { h with
    count := rfl
    window := rfl }

theorem SameView.appendByte (h : SameView s t) (hs : s.Inv) (ht : t.Inv) (b : Byte) :
    SameView (appendByte b s) (appendByte b t) where
  params := by simpa using h.params
  count := by
    rw [appendByte_count_eq b hs.capacity_pos hs.count, appendByte_count_eq b ht.capacity_pos ht.count, h.count,
      h.params]
  window := by
    rw [window_appendByte b hs.capacity_pos hs.count hs.canonical,
      window_appendByte b ht.capacity_pos ht.count ht.canonical, h.count, h.params, h.window]
  validCount := by simpa using h.validCount
  lastOutcome := by simpa using h.lastOutcome
  lastFrame := by simpa using h.lastFrame
  ck := by simpa using h.ck
  err := by simpa using h.err
  runCount := by simpa using h.runCount
  cancel := by simpa using h.cancel
  foReady := by simpa using h.foReady
  inputs := by simpa using h.inputs
  out := by simpa using h.out

theorem SameView.peekByte (h : SameView s t) {i : Nat} (hi : i < s.count) : peekByte s i = peekByte t i :=
  peekByte_eq_of_window h.window hi

theorem SameView.findSync (h : SameView s t) : findSync s = findSync t := findSync_congr h.window

theorem SameView.readRegister (h : SameView s t) (r : RegName) : readRegister r s = readRegister r t := by
  cases r with
  | capacity | maxpay | itercap => simp only [Machine.readRegister, h.params]
  | available => simp only [Machine.readRegister, h.count]
  | validCount => exact h.validCount
  | lastOutcome => exact h.lastOutcome
  | lastFrame => exact h.lastFrame
  | ck => exact h.ck
  | err => exact h.err
  | target => rfl

/-- A reset leaves nothing of the buffer. -/
theorem SameView.afterReset (h : SameView s t) : SameView (afterReset s) (afterReset t) :=
  ⟨h.params, rfl, rfl, rfl, rfl, rfl, rfl, rfl, rfl, h.cancel, h.foReady, h.inputs, h.out⟩

/-! Responses. -/

theorem SameView.respond (h : SameView s t) (status : Status) (data : Word) :
    SameOutcome (respond status data s) (respond status data t) := h.emit _

theorem SameView.raiseOutOfRange (h : SameView s t) : SameOutcome (raiseOutOfRange s) (raiseOutOfRange t) := by
  rw [raiseOutOfRange_eq, raiseOutOfRange_eq, h.err]
  exact (h.setErr _).emit _

theorem SameView.raiseIllegal (h : SameView s t) : SameOutcome (raiseIllegal s) (raiseIllegal t) := by
  rw [raiseIllegal_eq, raiseIllegal_eq, h.err]
  exact (h.setErr _).emit _

end

/-! One iteration (41_extractor.md R76). -/

/-- Two iterations that end, or hang, alike. -/
inductive SameIteration : Iteration → Iteration → Prop where
  | ended (o : IterOutcome) {s t : State} (h : SameView s t) : SameIteration (.ended o s) (.ended o t)
  | hung {s t : State} (h : SameView s t) : SameIteration (.hung s) (.hung t)

theorem SameIteration.state {i j : Iteration} (h : SameIteration i j) : SameView i.state j.state := by
  cases h with
  | ended o h => exact h
  | hung h => exact h

section
variable {s t : State}

theorem SameView.countFrame (h : SameView s t) (hd : Header) : SameView (countFrame hd s) (countFrame hd t) := by
  unfold Machine.countFrame
  rw [h.validCount]
  exact (h.setValidCount _).setLastFrame _

theorem SameView.emitAndConsume (h : SameView s t) (hd : Header) (hr : frameRecord hd s = frameRecord hd t) :
    SameIteration (emitAndConsume hd s) (emitAndConsume hd t) := by
  unfold Machine.emitAndConsume
  rw [h.foReady, hr]
  split
  · exact .ended _ (((h.setFoReady _).emit _).consumeBytes _)
  · exact .hung (h.setFoReady _)

theorem SameView.acceptFrame (h : SameView s t) (hd : Header) (hr : frameRecord hd s = frameRecord hd t) :
    SameIteration (acceptFrame hd s) (acceptFrame hd t) := by
  unfold Machine.acceptFrame
  split
  · exact (h.countFrame hd).emitAndConsume hd hr
  · exact .ended _ ((h.countFrame hd).consumeBytes _)

/-- The sums, the trailer and the payload are read inside the window. -/
theorem SameView.checkFrame (h : SameView s t) {hd : Header} (hw : 8 + hd.plen.toNat ≤ s.count) :
    SameIteration (checkFrame hd s) (checkFrame hd t) := by
  have hsums : frameSums hd s = frameSums hd t := by
    unfold frameSums
    rw [peekRange_eq_of_window h.window (by omega)]
  have htrailer : trailerMatches hd s = trailerMatches hd t := by
    unfold trailerMatches
    rw [hsums, h.peekByte (by omega), h.peekByte (i := 7 + hd.plen.toNat) (by omega)]
  have hrecord : frameRecord hd s = frameRecord hd t := by
    unfold frameRecord payloadBytes
    rw [peekRange_eq_of_window h.window (by simp only [Config.headerLen]; omega)]
  unfold Machine.checkFrame
  rw [htrailer, hsums]
  split
  · exact (h.setCk _).acceptFrame hd hrecord
  · exact .ended _ ((h.setCk _).consumeBytes 2)

theorem SameView.examineCandidate (h : SameView s t) :
    SameIteration (examineCandidate s) (examineCandidate t) := by
  unfold Machine.examineCandidate
  rw [← h.count]
  split
  · exact .ended _ h
  · next h6 =>
    rw [← parseHeader_congr h.window (Nat.not_lt.1 h6), ← h.params]
    split
    · exact .ended _ (h.consumeBytes 2)
    · split
      · exact .ended _ h
      · next hw => exact h.checkFrame (Nat.not_lt.1 hw)

theorem SameView.iterate (h : SameView s t) : SameIteration (iterate s) (iterate t) := by
  unfold Machine.iterate
  rw [← h.count, ← h.findSync]
  split
  · exact .ended _ h
  · split
    · exact .ended _ (h.consumeBytes _)
    · split
      · exact .ended _ (h.consumeBytes _)
      · exact h.examineCandidate

end

/-! The RUN loop (41_extractor.md R95). -/

/-- Two RUNs that stand alike. -/
inductive SameProgress : RunProgress → RunProgress → Prop where
  | ended (r : RunReason) {s t : State} (h : SameView s t) : SameProgress (.ended r s) (.ended r t)
  | goesOn {s t : State} (h : SameView s t) : SameProgress (.goesOn s) (.goesOn t)
  | hung {s t : State} (h : SameView s t) : SameProgress (.hung s) (.hung t)

theorem SameProgress.state {p q : RunProgress} (h : SameProgress p q) : SameView p.state q.state := by
  cases h with
  | ended r h => exact h
  | goesOn h => exact h
  | hung h => exact h

section
variable {s t : State}

theorem SameView.countIteration (h : SameView s t) : SameView (countIteration s) (countIteration t) := by
  rw [countIteration_eq, countIteration_eq, h.runCount]
  exact h.setRunCount _

theorem SameView.sampleCancel (h : SameView s t) : SameView (sampleCancel s).2 (sampleCancel t).2 := by
  rw [sampleCancel_snd, sampleCancel_snd, h.cancel]
  exact h.setCancel _

theorem SameView.runTurn (h : SameView s t) : SameProgress (runTurn s) (runTurn t) := by
  unfold Machine.runTurn
  rw [sampleCancel_fst, sampleCancel_fst, h.cancel]
  split
  · exact .ended _ h.sampleCancel
  · have hi := h.sampleCancel.iterate
    generalize Machine.iterate (Machine.sampleCancel s).2 = i at hi ⊢
    generalize Machine.iterate (Machine.sampleCancel t).2 = j at hi ⊢
    cases hi with
    | ended o hu =>
      dsimp only
      split
      · exact .ended (.stop o) hu.countIteration
      · exact .goesOn hu.countIteration
    | hung hu => exact .hung hu

theorem SameView.runTurns (n : Nat) (h : SameView s t) : SameProgress (runTurns n s) (runTurns n t) := by
  induction n generalizing s t with
  | zero => exact .goesOn h
  | succ n ih =>
    unfold Machine.runTurns
    have hp := h.runTurn
    generalize Machine.runTurn s = p at hp ⊢
    generalize Machine.runTurn t = q at hp ⊢
    cases hp with
    | ended r hu => exact .ended r hu
    | goesOn hu => exact ih hu
    | hung hu => exact .hung hu

theorem SameView.finishRun (h : SameView s t) (r : RunReason) : SameOutcome (finishRun r s) (finishRun r t) := by
  rw [finishRun_eq, finishRun_eq, h.runCount]
  exact ((h.setLastOutcome _).setRunCount _).emit _

theorem SameView.finishAtCap (h : SameView s t) :
    SameOutcome (Machine.finishRun (capBoundary s).1 (capBoundary s).2)
      (Machine.finishRun (capBoundary t).1 (capBoundary t).2) := by
  unfold capBoundary
  rw [sampleCancel_fst, sampleCancel_fst, h.cancel]
  split
  · exact h.sampleCancel.finishRun _
  · exact h.sampleCancel.clearBuffer.finishRun _

theorem SameView.runLoop (h : SameView s t) : SameProgress (runLoop s) (runLoop t) := by
  unfold Machine.runLoop
  rw [h.params]
  exact (h.setRunCount _).runTurns _

/-! The commands. -/

theorem SameView.execStep (h : SameView s t) : SameOutcome (execStep s) (execStep t) := by
  unfold Machine.execStep
  have hi := h.iterate
  generalize Machine.iterate s = i at hi ⊢
  generalize Machine.iterate t = j at hi ⊢
  cases hi with
  | ended o hu => exact (hu.setLastOutcome _).emit _
  | hung hu => exact rfl

theorem SameView.execRun (h : SameView s t) : SameOutcome (execRun s) (execRun t) := by
  unfold Machine.execRun
  have hp := h.runLoop
  generalize Machine.runLoop s = p at hp ⊢
  generalize Machine.runLoop t = q at hp ⊢
  cases hp with
  | ended r hu => exact hu.finishRun r
  | goesOn hu => exact hu.finishAtCap
  | hung hu => exact rfl

theorem SameView.execPeek (h : SameView s t) (n : Half) : SameOutcome (execPeek n s) (execPeek n t) := by
  unfold Machine.execPeek
  rw [← h.count]
  split
  · next hn =>
    rw [← h.peekByte hn]
    exact h.respond _ _
  · exact h.raiseOutOfRange

theorem SameView.execRdreg (h : SameView s t) (r : BitVec 4) : SameOutcome (execRdreg r s) (execRdreg r t) := by
  unfold Machine.execRdreg
  cases registerOperand r with
  | some name =>
    simp only [← h.readRegister name]
    exact h.respond _ _
  | none => exact h.raiseIllegal

theorem SameView.execConsume (h : SameView s t) (n : Half) : SameOutcome (execConsume n s) (execConsume n t) := by
  unfold Machine.execConsume consumed
  rw [h.count]
  exact (h.consumeBytes _).respond _ _

theorem SameView.execCkfeed (h : SameView s t) (x : Byte) : SameOutcome (execCkfeed x s) (execCkfeed x t) := by
  unfold Machine.execCkfeed
  rw [h.ck]
  exact (h.setCk _).respond _ _

theorem SameView.execFindsync (h : SameView s t) : SameOutcome (execFindsync s) (execFindsync t) := by
  unfold Machine.execFindsync
  rw [h.findSync]
  exact h.respond _ _

theorem SameView.exec (h : SameView s t) (hs : s.Inv) (ht : t.Inv) (i : Instr) :
    SameOutcome (exec i s) (exec i t) := by
  cases i with
  | nop => exact h.respond _ _
  | append b => exact (h.appendByte hs ht b).respond _ _
  | peek n => exact h.execPeek n
  | consume n => exact h.execConsume n
  | findsync => exact h.execFindsync
  | clear => exact h.clearBuffer.respond _ _
  | step => exact h.execStep
  | run => exact h.execRun
  | ckrst => exact (h.setCk _).respond _ _
  | ckfeed x => exact h.execCkfeed x
  | rdreg r => exact h.execRdreg r

/-! A step, and a run of steps. -/

theorem SameView.progressOf (h : SameView s t) (i : Instr) (done : Nat) :
    SameView (progressOf i done s) (progressOf i done t) := by
  cases i with
  | step =>
    rw [progressOf_step, progressOf_step]
    split
    · exact h
    · exact h.iterate.state
  | run =>
    rw [progressOf_run, progressOf_run, h.params]
    exact ((h.setRunCount _).runTurns _).state
  | nop | append | peek | consume | findsync | clear | ckrst | ckfeed | rdreg => exact h

theorem SameView.abandon (h : SameView s t) (w : Word) (done : Nat) :
    SameView (abandon w done s) (abandon w done t) := by
  unfold Machine.abandon
  cases decode w with
  | ok i => exact (h.progressOf i done).afterReset
  | error e => exact h.afterReset

theorem SameView.step (h : SameView s t) (hs : s.Inv) (ht : t.Inv) : SameOutcome (step s) (step t) := by
  cases hin : s.inputs with
  | nil =>
    rw [step_idle hin, step_idle (h.inputs ▸ hin)]
    exact h
  | cons e rest =>
    have hin' : t.inputs = e :: rest := h.inputs ▸ hin
    have h' := h.setInputs rest
    cases e with
    | command w =>
      cases hd : decode w with
      | ok i =>
        rw [step_legal hin hd, step_legal hin' hd]
        exact h'.exec (hs.setInputs rest) (ht.setInputs rest) i
      | error e =>
        rw [step_illegal hin hd, step_illegal hin' hd]
        exact h'.raiseIllegal
    | reset =>
      rw [step_reset hin, step_reset hin']
      exact h'.afterReset
    | interrupted w done =>
      rw [step_interrupted hin, step_interrupted hin']
      exact h'.abandon w done

end

/-- Outcomes alike are two next states, one fault or one refusal. -/
theorem SameOutcome.alike : ∀ {a b : Host.Outcome State Fault Refusal}, SameOutcome a b →
    (∃ u v, a = .next u ∧ b = .next v ∧ SameView u v) ∨ (∃ r, a = .fault r ∧ b = .fault r) ∨
      ∃ r, a = .refused r ∧ b = .refused r
  | .next u, .next v, h => .inl ⟨u, v, rfl, rfl, h⟩
  | .fault r, .fault _, rfl => .inr (.inl ⟨r, rfl, rfl⟩)
  | .refused r, .refused _, rfl => .inr (.inr ⟨r, rfl, rfl⟩)

/-- Settles O17, by induction on the number of steps: `SameView.step`, and O16 for the states it leads to. -/
theorem hiddenStateChangesNoResult : Obligations.HiddenStateChangesNoResult := by
  intro n
  induction n with
  | zero => exact fun s t _ _ h => h
  | succ n ih =>
    intro s t hs ht h
    rcases (h.step hs ht).alike with ⟨u, v, hu, hv, huv⟩ | ⟨r, hu, hv⟩ | ⟨r, hu, hv⟩
    · rw [runs_succ_of_next n hu, runs_succ_of_next n hv]
      exact ih u v (everyStepKeepsTheInvariant s u hs hu) (everyStepKeepsTheInvariant t v ht hv) huv
    · rw [runs_succ_of_fault n hu, runs_succ_of_fault n hv]
      rfl
    · rw [runs_succ_of_refused n hu, runs_succ_of_refused n hv]
      rfl

end Sys2Proof.Machine

/-! PROOFS. Idleness, resets and commands cut short by one (60_exceptions.md R118, 70_reset_and_hazards.md R119,
R120). -/

namespace Sys2Proof.Machine

/-- Settles O11: `step_idle`. -/
theorem idleKeepsAllState : Obligations.IdleKeepsAllState := fun _ => step_idle

/-- Settles O12: the step is `afterReset`, field by field. -/
theorem resetPutsEveryStateAtItsResetValue : Obligations.ResetPutsEveryStateAtItsResetValue :=
  fun _ _ hin => step_reset hin

/-- Settles O13: the reset state and its registers are closed terms. -/
theorem resetStateHoldsTheResetValues : Obligations.ResetStateHoldsTheResetValues := by
  unfold Obligations.ResetStateHoldsTheResetValues
  decide

/-! How far the command of a word had come when `rst` rose (R119). -/

theorem progressOfWord_step {w : Word} {done : Nat} (hd : decode w = .ok .step) (hdone : 0 < done) (s : State) :
    progressOfWord w done s = (iterate s).state := by
  rw [progressOfWord, hd]
  exact (progressOf_step done s).trans (if_neg (Nat.ne_of_gt hdone))

theorem progressOfWord_run {w : Word} (hd : decode w = .ok .run) (done : Nat) (s : State) :
    progressOfWord w done s = (runTurns (min done s.params.iterCap) (s.setRunCount (some 0))).state := by
  rw [progressOfWord, hd]
  rfl

/-- No other command, and no STEP before its iteration, has done anything that stays. -/
theorem progressOfWord_other {w : Word} {done : Nat} (hstep : decode w ≠ .ok .step ∨ done = 0)
    (hrun : decode w ≠ .ok .run) (s : State) : progressOfWord w done s = s := by
  unfold progressOfWord
  cases hd : decode w with
  | error e => rfl
  | ok i =>
    cases i with
    | step =>
      have h0 : done = 0 := hstep.resolve_left (not_not.2 hd)
      exact (progressOf_step done s).trans (if_pos h0)
    | run => exact absurd hd hrun
    | nop | append | peek | consume | findsync | clear | ckrst | ckfeed | rdreg => rfl

theorem iterate_state_cancel (s : State) : (iterate s).state.cancel = s.cancel := by
  cases h : iterate s with
  | ended o u => exact (iterate_frame h).cancel
  | hung u => cases iterate_hung h; rfl

/-- Settles O14: the state is the reset of what the command had reached, whose records are `Extracted`'s. -/
theorem commandCutShortByResetGetsNoResponse : Obligations.CommandCutShortByResetGetsNoResponse := by
  intro s w done rest hin
  obtain ⟨hparams, hinputs, -, -, ⟨fs, hout⟩, -⟩ := extracted_progressOfWord w done (s.setInputs rest)
  refine ⟨afterReset (progressOfWord w done (s.setInputs rest)), fs, ?_, ?_, ?_, ?_, ?_⟩
  · rw [step_interrupted hin, abandon_eq]
  · unfold afterReset
    rw [hparams, hinputs, hout]
    rfl
  · rintro u hd hdone rfl
    rw [progressOfWord_step hd hdone] at hout ⊢
    exact ⟨hout, iterate_state_cancel _, rfl⟩
  · rintro u hd rfl
    rw [progressOfWord_run hd] at hout ⊢
    exact ⟨hout, rfl, rfl⟩
  · intro hstep hrun
    rw [progressOfWord_other hstep hrun] at hout ⊢
    exact ⟨by simpa using hout, rfl, rfl⟩

end Sys2Proof.Machine

/-! PROOFS. The turns of a RUN's loop one after the other (41_extractor.md R95). -/

namespace Sys2Proof.Machine

/-- The turns of the loop that were continues: `Continues s os v` says that from the boundary at `s` iterations end
with the continues `os`, `cancel` being 0 at the boundary before each, and the loop then stands at `v`. -/
inductive Continues : State → List IterOutcome → State → Prop where
  | nil (s : State) : Continues s [] s
  | cons {s t v : State} {o : IterOutcome} {os : List IterOutcome} (hc : (Pin.sample s.cancel).1 = false)
      (hi : iterate (s.setCancel (Pin.sample s.cancel).2) = .ended o t) (ho : o.isStop = false)
      (h : Continues (t.setRunCount (t.runCount.map (· + 1))) os v) : Continues s (o :: os) v

/-- What a look at `cancel`, an iteration that ended and counting keep, holds of the state after the continues. -/
theorem Continues.keeps {P : State → Prop} (hcancel : ∀ s p, P s → P (s.setCancel p))
    (hcount : ∀ s k, P s → P (s.setRunCount k)) (hended : ∀ s o t, P s → iterate s = .ended o t → P t)
    {s v : State} {os : List IterOutcome} (h : Continues s os v) (hs : P s) : P v := by
  induction h with
  | nil => exact hs
  | cons _ hi _ _ ih => exact ih (hcount _ _ (hended _ _ _ (hcancel _ _ hs) hi))

/-- At most `n` turns are some continues and, if they are fewer than `n`, one turn that is none. -/
theorem runTurns_continues (n : Nat) (s : State) :
    ∃ os v, Continues s os v ∧
      (os.length = n ∧ runTurns n s = .goesOn v ∨
        os.length < n ∧ runTurns n s = runTurn v ∧ ∀ u, runTurn v ≠ .goesOn u) := by
  induction n generalizing s with
  | zero => exact ⟨[], s, .nil s, .inl ⟨rfl, rfl⟩⟩
  | succ n ih =>
    have hcase := runTurn_case s
    unfold runTurns
    cases hr : runTurn s with
    | ended r u => exact ⟨[], s, .nil s, .inr ⟨Nat.succ_pos n, hr.symm, by simp [hr]⟩⟩
    | hung u => exact ⟨[], s, .nil s, .inr ⟨Nat.succ_pos n, hr.symm, by simp [hr]⟩⟩
    | goesOn u =>
      rw [hr] at hcase
      cases hcase with
      | goesOn o t hc hi ho =>
        obtain ⟨os, v, hcont, hend⟩ := ih (t.setRunCount (t.runCount.map (· + 1)))
        refine ⟨o :: os, v, .cons hc hi ho hcont, ?_⟩
        simpa using hend

end Sys2Proof.Machine

/-! PROOFS. Which commands respond, with what, and what each of them may write (10_state.md R14, 30_encoding.md R59,
60_exceptions.md R106, R112, 70_reset_and_hazards.md R127). -/

namespace Sys2Proof.Machine

/-! PEEK (40_ringbuffer.md R70, 60_exceptions.md R104) and RDREG of a reserved index. -/

theorem exec_peek_inside {n : Half} {s : State} (h : n.toNat < s.count) :
    exec (.peek n) s = .next (s.emit (.response ⟨.ok, wordOfByte (peekByte s n.toNat)⟩)) := by
  have hexec : exec (.peek n) s = execPeek n s := rfl
  exact hexec.trans (if_pos h)

theorem exec_peek_past {n : Half} {s : State} (h : s.count ≤ n.toNat) : exec (.peek n) s = raiseOutOfRange s := by
  have hexec : exec (.peek n) s = execPeek n s := rfl
  exact hexec.trans (if_neg (Nat.not_lt.2 h))

theorem registerOperand_eq_none {r : BitVec 4} : registerOperand r = none ↔ (Instr.rdreg r).wellFormed = false := by
  revert r; decide

theorem exec_rdreg_reserved {r : BitVec 4} (h : registerOperand r = none) (s : State) :
    exec (.rdreg r) s = raiseIllegal s := by
  have hexec : exec (.rdreg r) s = execRdreg r s := rfl
  rw [hexec, execRdreg, h]

/-- The commands that read the state and write no more than ERR. -/
def OnlyReads : Instr → Prop
  | .nop | .peek _ | .findsync | .rdreg _ => True
  | _ => False

/-- Such a command leaves the state with at most another ERR, and its response. -/
theorem exec_onlyReads {i : Instr} {s t : State} (h : exec i s = .next t) (hi : OnlyReads i) :
    ∃ (e : Word) (r : Response), t = (s.setErr e).emit (.response r) := by
  cases i with
  | nop | findsync => cases h; exact ⟨s.err, _, rfl⟩
  | peek n =>
    by_cases hn : n.toNat < s.count
    · rw [exec_peek_inside hn] at h
      cases h
      exact ⟨s.err, _, rfl⟩
    · rw [exec_peek_past (Nat.not_lt.1 hn)] at h
      cases h
      exact ⟨_, _, rfl⟩
  | rdreg r =>
    cases hr : registerOperand r with
    | some name =>
      rw [exec_rdreg hr] at h
      cases h
      exact ⟨s.err, _, rfl⟩
    | none =>
      rw [exec_rdreg_reserved hr] at h
      cases h
      exact ⟨_, _, rfl⟩
  | append | consume | clear | step | run | ckrst | ckfeed => exact hi.elim

/-! The response of a command. -/

/-- A command that completes: records of its own at most, then its one response with status OK; ERR is untouched. -/
structure Completed (s t : State) : Prop where
  err : t.err = s.err
  out : ∃ (fs : List FrameOut) (d : Word), t.out = s.out ++ fs.map .frame ++ [.response ⟨.ok, d⟩]

theorem Completed.of_emit {s u : State} (he : u.err = s.err) (ho : u.out = s.out) (d : Word) :
    Completed s (u.emit (.response ⟨.ok, d⟩)) := ⟨he, [], d, by simp [ho]⟩

theorem Extracted.completed {s u : State} (h : Extracted s u) (c : Word) (k : Option Nat) (d : Word) :
    Completed s (((u.setLastOutcome c).setRunCount k).emit (.response ⟨.ok, d⟩)) := by
  obtain ⟨fs, hfs⟩ := h.out
  exact ⟨h.err, fs, d, by simp [hfs]⟩

theorem exec_step_completed {s t : State} (h : exec .step s = .next t) : Completed s t := by
  obtain ⟨o, u, hi, rfl⟩ := exec_step_next h
  exact (extracted_of_ended hi).completed (BitVec.ofNat 32 o.code.toNat) u.runCount _

theorem exec_run_completed {s t : State} (h : exec .run s = .next t) : Completed s t := by
  obtain ⟨r, u, hfin, hu⟩ := exec_run_next h
  cases hfin
  exact hu.completed _ _ _

/-- Every answer: the command completes, or it is a PEEK at or past `count`, or it is the ill-formed RDREG. -/
theorem exec_next {i : Instr} {s t : State} (h : exec i s = .next t) :
    Completed s t ∨ (∃ n, i = .peek n ∧ s.count ≤ n.toNat ∧ raiseOutOfRange s = .next t) ∨
      (i.wellFormed = false ∧ raiseIllegal s = .next t) := by
  cases i with
  | step => exact .inl (exec_step_completed h)
  | run => exact .inl (exec_run_completed h)
  | append b => cases h; exact .inl (.of_emit (appendByte_err s b) (appendByte_out s b) _)
  | nop | consume | findsync | clear | ckrst | ckfeed =>
    cases h
    exact .inl (.of_emit (by rfl) (by rfl) _)
  | peek n =>
    by_cases hn : n.toNat < s.count
    · rw [exec_peek_inside hn] at h
      cases h
      exact .inl (.of_emit rfl rfl _)
    · rw [exec_peek_past (Nat.not_lt.1 hn)] at h
      exact .inr (.inl ⟨n, rfl, Nat.not_lt.1 hn, h⟩)
  | rdreg r =>
    cases hr : registerOperand r with
    | some name =>
      rw [exec_rdreg hr] at h
      cases h
      exact .inl (.of_emit rfl rfl _)
    | none => exact .inr (.inr ⟨registerOperand_eq_none.1 hr, (exec_rdreg_reserved hr s).symm.trans h⟩)

/-- Settles O18: the response is the last event of each answer in `exec_next`, or of an illegal word's. -/
theorem everyCommandGetsOneResponseAfterItsRecords : Obligations.EveryCommandGetsOneResponseAfterItsRecords := by
  intro s t w rest hin ht
  cases hd : decode w with
  | error e =>
    rw [step_illegal hin hd] at ht
    cases ht
    exact ⟨[], ⟨.ill, 0#32⟩, by simp, rfl⟩
  | ok i =>
    rw [step_legal hin hd] at ht
    obtain ⟨-, hinputs, -⟩ := exec_fill ht
    rcases exec_next ht with hok | ⟨n, -, -, hoor⟩ | ⟨-, hill⟩
    · obtain ⟨fs, d, hout⟩ := hok.out
      exact ⟨fs, _, hout, hinputs⟩
    · cases hoor
      exact ⟨[], ⟨.oor, 0#32⟩, by simp, hinputs⟩
    · cases hill
      exact ⟨[], ⟨.ill, 0#32⟩, by simp, hinputs⟩

/-- Settles O19: of the answers in `exec_next` a legal command other than that PEEK gives the first. -/
theorem onlyPeekPastTheWindowFails : Obligations.OnlyPeekPastTheWindowFails := by
  intro i s t hw ht hpeek
  rcases exec_next ht with hok | ⟨n, rfl, hn, -⟩ | ⟨hill, -⟩
  · exact ⟨hok.err, hok.out⟩
  · exact absurd (hpeek n rfl) (Nat.not_lt.2 hn)
  · rw [hw] at hill
    cases hill

/-! The one stop (R127): an iteration whose record is not taken. -/

theorem iterate_ended_of_downstreamTakes {s : State} (h : s.DownstreamTakes) :
    ∃ o t, iterate s = .ended o t ∧ t.DownstreamTakes := by
  have hcase := iterate_case s
  generalize iterate s = i at hcase
  cases hcase with
  | hung _ _ _ hd => rw [h.sample_fst] at hd; cases hd
  | targetFrame => exact ⟨_, _, rfl, h.sample_snd⟩
  | needData | noSync | junk | needHeader | badLength | needFrame | badChecksum | otherFrame => exact ⟨_, _, rfl, h⟩

theorem downstreamTakes_of_ended {s t : State} {o : IterOutcome} (h : s.DownstreamTakes)
    (hi : iterate s = .ended o t) : t.DownstreamTakes := by
  obtain ⟨o', t', hi', ht⟩ := iterate_ended_of_downstreamTakes h
  obtain ⟨-, rfl⟩ := Iteration.ended.inj (hi.symm.trans hi')
  exact ht

theorem Continues.downstreamTakes {s v : State} {os : List IterOutcome} (h : Continues s os v)
    (hs : s.DownstreamTakes) : v.DownstreamTakes :=
  h.keeps (P := State.DownstreamTakes) (fun _ _ h => h) (fun _ _ h => h)
    (fun _ _ _ hs hi => downstreamTakes_of_ended hs hi) hs

theorem runTurn_not_hung {s : State} (h : s.DownstreamTakes) (u : State) : runTurn s ≠ .hung u := by
  intro hr
  have hcase := runTurn_case s
  rw [hr] at hcase
  cases hcase with
  | hung t hc hi =>
    obtain ⟨o, t, hi', -⟩ := iterate_ended_of_downstreamTakes (s := s.setCancel (Pin.sample s.cancel).2) h
    rw [hi] at hi'
    cases hi'

theorem runTurns_not_hung {n : Nat} {s : State} (h : s.DownstreamTakes) (u : State) : runTurns n s ≠ .hung u := by
  obtain ⟨os, v, hcont, ⟨-, hr⟩ | ⟨-, hr, -⟩⟩ := runTurns_continues n s
  · simp [hr]
  · rw [hr]
    exact runTurn_not_hung (hcont.downstreamTakes h) u

theorem exec_step_of_downstreamTakes {s : State} (h : s.DownstreamTakes) : ∃ t, exec .step s = .next t := by
  obtain ⟨o, t, hi, -⟩ := iterate_ended_of_downstreamTakes h
  exact ⟨_, exec_step_of_ended hi⟩

theorem exec_run_of_downstreamTakes {s : State} (h : s.DownstreamTakes) : ∃ t, exec .run s = .next t := by
  have hexec : exec .run s = execRun s := rfl
  rw [hexec, execRun]
  cases hr : runLoop s with
  | ended r u => exact ⟨_, finishRun_eq r u⟩
  | goesOn u => exact ⟨_, finishRun_eq _ _⟩
  | hung u => exact absurd hr (runTurns_not_hung (s := s.setRunCount (some 0)) h u)

/-- Any command but STEP and RUN responds, whatever the downstream does. -/
theorem exec_next_of_ne {i : Instr} (hstep : i ≠ .step) (hrun : i ≠ .run) (s : State) : ∃ t, exec i s = .next t := by
  cases i with
  | step => exact absurd rfl hstep
  | run => exact absurd rfl hrun
  | peek n =>
    by_cases hn : n.toNat < s.count
    · exact ⟨_, exec_peek_inside hn⟩
    · exact ⟨_, exec_peek_past (Nat.not_lt.1 hn)⟩
  | rdreg r =>
    cases hr : registerOperand r with
    | some name => exact ⟨_, exec_rdreg hr s⟩
    | none => exact ⟨_, exec_rdreg_reserved hr s⟩
  | nop | append | consume | findsync | clear | ckrst | ckfeed => exact ⟨_, rfl⟩

theorem exec_of_downstreamTakes (i : Instr) {s : State} (h : s.DownstreamTakes) : ∃ t, exec i s = .next t := by
  by_cases hstep : i = .step
  · exact hstep ▸ exec_step_of_downstreamTakes h
  by_cases hrun : i = .run
  · exact hrun ▸ exec_run_of_downstreamTakes h
  exact exec_next_of_ne hstep hrun s

/-- Settles O20: `exec_of_downstreamTakes`. -/
theorem everyCommandCompletesWhenRecordsAreTaken : Obligations.EveryCommandCompletesWhenRecordsAreTaken :=
  fun i _ h => exec_of_downstreamTakes i h

/-- A command answers a next state or the one fault; nothing is refused. -/
theorem exec_ne_refused (i : Instr) (s : State) (r : Refusal) : exec i s ≠ .refused r := by
  by_cases hstep : i = .step
  · subst hstep
    simp only [exec, execStep]
    split <;> simp [respond_eq]
  by_cases hrun : i = .run
  · subst hrun
    simp only [exec, execRun]
    split <;> simp [finishRun_eq]
  obtain ⟨t, ht⟩ := exec_next_of_ne hstep hrun s
  simp [ht]

/-- Settles O21: a command that stops is none that `exec_of_downstreamTakes` or `exec_next_of_ne` speaks of. -/
theorem onlyAnUntakenRecordStopsTheMachine : Obligations.OnlyAnUntakenRecordStopsTheMachine := by
  refine fun i s => ⟨exec_ne_refused i s, fun f hf => ⟨by cases f; rfl, ?_, fun htakes => ?_⟩⟩
  · by_contra hne
    obtain ⟨hstep, hrun⟩ := not_or.1 hne
    obtain ⟨t, ht⟩ := exec_next_of_ne hstep hrun s
    rw [ht] at hf
    cases hf
  · obtain ⟨t, ht⟩ := exec_of_downstreamTakes i htakes
    rw [ht] at hf
    cases hf

/-! What a command may write (10_state.md R14). -/

/-- What no command but STEP and RUN writes. -/
structure StatusKept (s t : State) : Prop where
  validCount : t.validCount = s.validCount
  lastOutcome : t.lastOutcome = s.lastOutcome
  lastFrame : t.lastFrame = s.lastFrame
  foReady : t.foReady = s.foReady
  cancel : t.cancel = s.cancel
  runCount : t.runCount = s.runCount

theorem exec_statusKept {i : Instr} {s t : State} (hstep : i ≠ .step) (hrun : i ≠ .run) (h : exec i s = .next t) :
    StatusKept s t := by
  cases i with
  | step => exact absurd rfl hstep
  | run => exact absurd rfl hrun
  | append b => cases h; constructor <;> simp
  | nop | peek | findsync | rdreg =>
    obtain ⟨e, r, rfl⟩ := exec_onlyReads h trivial
    exact ⟨rfl, rfl, rfl, rfl, rfl, rfl⟩
  | consume | clear | ckrst | ckfeed => cases h; exact ⟨rfl, rfl, rfl, rfl, rfl, rfl⟩

theorem exec_ck {i : Instr} {s t : State} (hstep : i ≠ .step) (hrun : i ≠ .run) (hrst : i ≠ .ckrst)
    (hfeed : ∀ x, i ≠ .ckfeed x) (h : exec i s = .next t) : t.ck = s.ck := by
  cases i with
  | step => exact absurd rfl hstep
  | run => exact absurd rfl hrun
  | ckrst => exact absurd rfl hrst
  | ckfeed x => exact absurd rfl (hfeed x)
  | append b => cases h; simp
  | nop | peek | findsync | rdreg =>
    obtain ⟨e, r, rfl⟩ := exec_onlyReads h trivial
    rfl
  | consume | clear => cases h; rfl

/-- `cancel` is looked at, and `k` counted, by RUN alone. -/
theorem exec_cancel_runCount {i : Instr} {s t : State} (hrun : i ≠ .run) (h : exec i s = .next t) :
    t.cancel = s.cancel ∧ t.runCount = s.runCount := by
  by_cases hstep : i = .step
  · subst hstep
    obtain ⟨o, u, hi, rfl⟩ := exec_step_next h
    have hf := iterate_frame hi
    exact ⟨hf.cancel, hf.runCount⟩
  · have hkept := exec_statusKept hstep hrun h
    exact ⟨hkept.cancel, hkept.runCount⟩

theorem exec_err {i : Instr} {s t : State} (hw : i.wellFormed = true) (hpeek : ∀ n, i ≠ .peek n)
    (h : exec i s = .next t) : t.err = s.err := by
  rcases exec_next h with hok | ⟨n, hn, -⟩ | ⟨hill, -⟩
  · exact hok.err
  · exact absurd hn (hpeek n)
  · rw [hw] at hill
    cases hill

theorem exec_peek_err {n : Half} {s t : State} (h : exec (.peek n) s = .next t) :
    t.err = if n.toNat < s.count then s.err else s.err ||| 1#32 := by
  by_cases hn : n.toNat < s.count
  · rw [exec_peek_inside hn] at h
    cases h
    exact (if_pos hn).symm
  · rw [exec_peek_past (Nat.not_lt.1 hn)] at h
    cases h
    exact (if_neg hn).symm

/-- APPEND alone writes a byte of `buf` (40_ringbuffer.md R62). -/
theorem exec_buf {i : Instr} {s t : State} (happ : ∀ b, i ≠ .append b) (h : exec i s = .next t) : t.buf = s.buf := by
  cases i with
  | append b => exact absurd rfl (happ b)
  | step =>
    obtain ⟨o, u, hi, rfl⟩ := exec_step_next h
    exact (extracted_of_ended hi).buf
  | run =>
    obtain ⟨r, u, hfin, hu⟩ := exec_run_next h
    cases hfin
    exact hu.buf
  | nop | peek | findsync | rdreg =>
    obtain ⟨e, r, rfl⟩ := exec_onlyReads h trivial
    rfl
  | consume | clear | ckrst | ckfeed => cases h; rfl

theorem exec_start_count {i : Instr} {s t : State} (happ : ∀ b, i ≠ .append b) (hcons : ∀ n, i ≠ .consume n)
    (hclear : i ≠ .clear) (hstep : i ≠ .step) (hrun : i ≠ .run) (h : exec i s = .next t) :
    t.start = s.start ∧ t.count = s.count := by
  cases i with
  | append b => exact absurd rfl (happ b)
  | consume n => exact absurd rfl (hcons n)
  | clear => exact absurd rfl hclear
  | step => exact absurd rfl hstep
  | run => exact absurd rfl hrun
  | nop | peek | findsync | rdreg =>
    obtain ⟨e, r, rfl⟩ := exec_onlyReads h trivial
    exact ⟨rfl, rfl⟩
  | ckrst | ckfeed => cases h; exact ⟨rfl, rfl⟩

/-- Settles O22: one lemma for each piece of state, above, and `exec_fill` for the build parameters and the inputs. -/
theorem eachStateIsWrittenOnlyByItsCommands : Obligations.EachStateIsWrittenOnlyByItsCommands := by
  intro i s t h
  obtain ⟨hparams, hinputs, -⟩ := exec_fill h
  refine ⟨hparams, hinputs, fun hstep hrun => ?_, fun hstep hrun hrst hfeed => exec_ck hstep hrun hrst hfeed h,
    fun hrun => exec_cancel_runCount hrun h, fun hw hpeek => exec_err hw hpeek h, ?_, ?_,
    fun happ hcons hclear hstep hrun => exec_start_count happ hcons hclear hstep hrun h⟩
  · have hkept := exec_statusKept hstep hrun h
    exact ⟨hkept.validCount, hkept.lastOutcome, hkept.lastFrame, hkept.foReady⟩
  · rintro n rfl
    exact exec_peek_err h
  · intro happ p
    rw [exec_buf happ h]

end Sys2Proof.Machine

/-! PROOFS. The buffer commands (40_ringbuffer.md §2), CKRST and CKFEED (42_checksum_control.md R99, R100), and the
transfers of a record (60_exceptions.md R110). -/

namespace Sys2Proof.Machine

/-- Settles O23: NOP is its response. -/
theorem nopOnlyAnswers : Obligations.NopOnlyAnswers := fun _ => rfl

/-! APPEND (R62, R68). -/

theorem exec_append (b : Byte) (s : State) :
    exec (.append b) s = .next ((appendByte b s).emit (.response ⟨.ok, 0#32⟩)) := rfl

/-- The window's end, where a byte is appended: dropping logical 0 of a full buffer moves it by nothing. -/
theorem appendAddress_eq {s : State} (h : 0 < s.params.capacity) :
    appendAddress s = (s.start + s.count) % s.params.capacity := by
  unfold appendAddress physical makeRoom
  split
  · next hfull =>
    simp only [evictOldest, State.setBuffer_start, State.setBuffer_count, State.setBuffer_params, Nat.mod_add_mod]
    congr 1
    omega
  · rfl

theorem makeRoom_start (s : State) :
    (makeRoom s).start = if s.count = s.params.capacity then (s.start + 1) % s.params.capacity else s.start := by
  unfold makeRoom
  split <;> rfl

/-- APPEND touches the buffer alone. -/
theorem sameOutsideBuffer_append (b : Byte) (s : State) (e : OutEvent) :
    SameOutsideBuffer s ((appendByte b s).emit e) := by
  constructor <;> simp

/-- Settles O24: `appendByte` by its effect on the window, its fields and the one write to `buf`. -/
theorem appendPutsTheByteAtTheEnd : Obligations.AppendPutsTheByteAtTheEnd := by
  intro s b h
  have hread := Memory.read_write (appendAddress s) b (h := h.canonical)
  refine ⟨_, exec_append b s, window_appendByte b h.capacity_pos h.count h.canonical,
    appendByte_count_eq b h.capacity_pos h.count, makeRoom_start s, appendAddress_eq h.capacity_pos, ?_, ?_,
    sameOutsideBuffer_append b s _, ?_⟩
  · rw [State.emit_buf, appendByte_buf, hread, if_pos rfl]
  · intro p hp
    rw [State.emit_buf, appendByte_buf, hread, if_neg hp]
  · rw [State.emit_out, appendByte_out]

/-! PEEK (R70, 60_exceptions.md R104). -/

/-- Settles O26: `exec_peek_inside`, the byte being the window's. -/
theorem peekAnswersTheWindowByte : Obligations.PeekAnswersTheWindowByte := by
  intro s n b hb
  obtain ⟨hn, rfl⟩ := window_getElem?_eq_some.1 hb
  rw [exec_peek_inside hn, wordOfByte, ← BitVec.ofNat_toNat]
  rfl

/-- Settles O27: `exec_peek_past`. -/
theorem peekPastTheWindowSetsOnlyErrOor : Obligations.PeekPastTheWindowSetsOnlyErrOor :=
  fun s _ hn => (exec_peek_past hn).trans (raiseOutOfRange_eq s)

/-! CONSUME (R63, R71). -/

theorem exec_consume (n : Half) (s : State) : exec (.consume n) s =
    .next ((consumeBytes n.toNat s).emit (.response ⟨.ok, BitVec.ofNat 32 (min n.toNat s.count)⟩)) := rfl

/-- Settles O28: `consumeBytes` by its effect on the window and its fields. -/
theorem consumeDropsFromTheFront : Obligations.ConsumeDropsFromTheFront := fun s n =>
  ⟨_, exec_consume n s, window_consumeBytes s n.toNat, rfl, rfl, fun _ => rfl,
    ⟨rfl, rfl, rfl, rfl, rfl, rfl, rfl, rfl, rfl, rfl⟩, rfl⟩

/-! How a command changes the window (R66). -/

/-- Every command but APPEND drops bytes at the window's front at most. -/
theorem exec_window_drop {i : Instr} {s t : State} (happ : ∀ b, i ≠ .append b) (h : exec i s = .next t) :
    ∃ n, window t = (window s).drop n := by
  cases i with
  | append b => exact absurd rfl (happ b)
  | consume n => cases h; exact ⟨n.toNat, window_consumeBytes s n.toNat⟩
  | clear => cases h; exact ⟨s.count, by simp⟩
  | step =>
    obtain ⟨o, u, hi, rfl⟩ := exec_step_next h
    exact (extracted_of_ended hi).window
  | run =>
    obtain ⟨r, u, hfin, hu⟩ := exec_run_next h
    cases hfin
    exact hu.window
  | nop | peek | findsync | rdreg =>
    obtain ⟨e, r, rfl⟩ := exec_onlyReads h trivial
    exact ⟨0, rfl⟩
  | ckrst | ckfeed => cases h; exact ⟨0, rfl⟩

theorem window_append_drop {s : State} (h : s.Inv) (b : Byte) :
    ∃ n, window (appendByte b s) = (window s).drop n ++ [b] := by
  rw [window_appendByte b h.capacity_pos h.count h.canonical]
  split
  · exact ⟨1, rfl⟩
  · exact ⟨0, rfl⟩

/-- Settles O31: the count's bound is the invariant's, the window's change that of the two lemmas above. -/
theorem windowGrowsByAppendAndShrinksAtTheFront : Obligations.WindowGrowsByAppendAndShrinksAtTheFront := by
  intro i s t hs h
  refine ⟨(hs.exec h).count, ?_, fun happ => exec_window_drop happ h⟩
  rintro b rfl
  cases h
  exact window_append_drop hs b

/-! CKRST and CKFEED. -/

/-- Settles O56: CKRST is a write of CK and its response. -/
theorem ckrstClearsCk : Obligations.CkrstClearsCk := fun _ => rfl

theorem ckA_toNat (w : Word) : (ckA w).toNat = w.toNat % 256 := by
  rw [ckA_eq_ofNat, BitVec.toNat_ofNat]

theorem ckB_toNat (w : Word) : (ckB w).toNat = w.toNat / 256 % 256 := by
  rw [ckB_eq_ofNat, BitVec.toNat_ofNat]

/-- Settles O57: the accumulation's two additions, as numbers modulo 256. -/
theorem ckfeedAccumulatesOneByte : Obligations.CkfeedAccumulatesOneByte := by
  rintro s x a b rfl rfl
  have hexec : exec (.ckfeed x) s = execCkfeed x s := rfl
  rw [hexec, execCkfeed]
  simp only [byteOperand, writeSums_eq_setCk, packCk_eq_ofNat, checksumStep_fst, checksumStep_snd, BitVec.toNat_add,
    ckA_toNat, ckB_toNat, Nat.add_mod_mod, respond_eq]
  rfl

/-! The frame-output port (R110). -/

theorem transfers_getElem? (f : FrameOut) (i : Nat) :
    f.transfers[i]? = f.payload[i]?.map fun b => ⟨b, i == 0, i + 1 == f.payload.length⟩ :=
  List.getElem?_mapIdx

theorem transfers_map_data (f : FrameOut) : f.transfers.map Transfer.data = f.payload := by
  apply List.ext_getElem?
  intro i
  rw [List.getElem?_map, transfers_getElem?, Option.map_map]
  exact congrFun Option.map_id _

/-- Settles O60: the transfers one by one. -/
theorem recordIsOneTransferPerPayloadByte : Obligations.RecordIsOneTransferPerPayloadByte := by
  refine fun f => ⟨transfers_map_data f, fun i x hx => ?_⟩
  rw [transfers_getElem?, Option.map_eq_some_iff] at hx
  obtain ⟨b, -, rfl⟩ := hx
  exact ⟨beq_iff_eq, beq_iff_eq⟩

end Sys2Proof.Machine

/-! PROOFS. The assembler's operands (30_encoding.md R60): in range they are read, out of range they are errors. -/

namespace Sys2Proof.Assembler

/-! A line of each mnemonic reads its operand. -/

theorem readLine_append (cs : List Char) :
    readLine "APPEND".toList [cs] = (readImm8 cs).map fun b => .command (.append b) := rfl

theorem readLine_ckfeed (cs : List Char) :
    readLine "CKFEED".toList [cs] = (readImm8 cs).map fun b => .command (.ckfeed b) := rfl

theorem readLine_peek (cs : List Char) :
    readLine "PEEK".toList [cs] = (readImm16 cs).map fun n => .command (.peek n) := rfl

theorem readLine_consume (cs : List Char) :
    readLine "CONSUME".toList [cs] = (readImm16 cs).map fun n => .command (.consume n) := rfl

theorem readLine_rdreg (cs : List Char) :
    readLine "RDREG".toList [cs] = (readRegister cs).map fun r => .command (.rdreg r) := rfl

theorem readLine_appends (css : List (List Char)) :
    readLine "APPENDS".toList css = (css.mapM readImm8).map .appends := rfl

theorem readLine_cksum (css : List (List Char)) :
    readLine "CKSUM".toList css = (css.mapM readImm8).map .cksum := rfl

/-! An operand and its bound. -/

section
variable {cs : List Char} {n : Nat}

theorem readBelow_of_lt {bound : Nat} (h : readNumber cs = some n) (hn : n < bound) : readBelow bound cs = some n := by
  simp only [readBelow, h, if_pos hn]

theorem readBelow_of_le {bound : Nat} (h : readNumber cs = some n) (hn : bound ≤ n) : readBelow bound cs = none := by
  simp only [readBelow, h, if_neg (Nat.not_lt.2 hn)]

theorem readImm8_of_lt (h : readNumber cs = some n) (hn : n < 256) : readImm8 cs = some (BitVec.ofNat 8 n) := by
  rw [readImm8, readBelow_of_lt h hn, Option.map_some]

theorem readImm8_of_le (h : readNumber cs = some n) (hn : 256 ≤ n) : readImm8 cs = none := by
  rw [readImm8, readBelow_of_le h hn, Option.map_none]

theorem readImm16_of_lt (h : readNumber cs = some n) (hn : n < 65536) : readImm16 cs = some (BitVec.ofNat 16 n) := by
  rw [readImm16, readBelow_of_lt h hn, Option.map_some]

theorem readImm16_of_le (h : readNumber cs = some n) (hn : 65536 ≤ n) : readImm16 cs = none := by
  rw [readImm16, readBelow_of_le h hn, Option.map_none]

/-- No register name is a number. -/
theorem readNumber_registerNames : ∀ row ∈ registerNames, readNumber row.1 = none := by decide

theorem readRegister_of_number (h : readNumber cs = some n) :
    readRegister cs = (readBelow 10 cs).map (BitVec.ofNat 4) := by
  have hname : registerNames.find? (fun row => row.1 == cs) = none := by
    rw [List.find?_eq_none]
    intro row hrow hcs
    rw [← eq_of_beq hcs, readNumber_registerNames row hrow] at h
    cases h
  rw [readRegister, hname]

theorem readRegister_of_lt (h : readNumber cs = some n) (hn : n < 10) : readRegister cs = some (BitVec.ofNat 4 n) := by
  rw [readRegister_of_number h, readBelow_of_lt h hn, Option.map_some]

theorem readRegister_of_le (h : readNumber cs = some n) (hn : 10 ≤ n) : readRegister cs = none := by
  rw [readRegister_of_number h, readBelow_of_le h hn, Option.map_none]

end

/-! A list of byte operands. -/

theorem mapM_readImm8_of_le {css : List (List Char)} {cs : List Char} {n : Nat} (hmem : cs ∈ css)
    (h : readNumber cs = some n) (hn : 256 ≤ n) : css.mapM readImm8 = none := by
  induction css with
  | nil => cases hmem
  | cons c css ih =>
    rw [List.mapM_cons]
    rcases List.mem_cons.1 hmem with rfl | hmem
    · rw [readImm8_of_le h hn]
      rfl
    · rw [ih hmem]
      cases readImm8 c <;> rfl

theorem mapM_readImm8_of_lt {css : List (List Char)} {ns : List Nat} (h : css.map readNumber = ns.map some)
    (hn : ∀ n ∈ ns, n < 256) : css.mapM readImm8 = some (ns.map (BitVec.ofNat 8)) := by
  induction css generalizing ns with
  | nil =>
    cases ns with
    | nil => rfl
    | cons n ns => cases h
  | cons c css ih =>
    cases ns with
    | nil => cases h
    | cons n ns =>
      obtain ⟨hc, hcss⟩ := List.cons.inj h
      rw [List.mapM_cons, readImm8_of_lt hc (hn n (by simp)), ih hcss fun m hm => hn m (by simp [hm])]
      rfl

/-- Settles O6: each mnemonic's line is its operand's reading, and the ten register names are closed. -/
theorem assemblerRefusesImmediatesOutOfRange : Obligations.AssemblerRefusesImmediatesOutOfRange := by
  refine ⟨fun cs n h => ?_, fun css cs n hmem h hn => ?_, fun css ns h hn => ?_, by decide⟩
  · rw [readLine_append, readLine_ckfeed, readLine_peek, readLine_consume, readLine_rdreg]
    refine ⟨fun hn => ?_, fun hn => ?_, fun hn => ?_, fun hn => ?_, fun hn => ?_, fun hn => ?_⟩
    · rw [readImm8_of_le h hn]; exact ⟨rfl, rfl⟩
    · rw [readImm16_of_le h hn]; exact ⟨rfl, rfl⟩
    · rw [readRegister_of_le h hn]; rfl
    · rw [readImm8_of_lt h hn]; exact ⟨rfl, rfl⟩
    · rw [readImm16_of_lt h hn]; exact ⟨rfl, rfl⟩
    · rw [readRegister_of_lt h hn]; rfl
  · rw [readLine_appends, readLine_cksum, mapM_readImm8_of_le hmem h hn]
    exact ⟨rfl, rfl⟩
  · rw [readLine_appends, readLine_cksum, mapM_readImm8_of_lt h hn]
    exact ⟨rfl, rfl⟩

end Sys2Proof.Assembler

/-! PROOFS. STEP at a candidate frame: one that is incomplete, a valid one, the target, and a frame as it is built
(41_extractor.md R83 to R88). -/

namespace Sys2Proof.Machine

/-- Settles O33: the window waits for the rest of a frame. -/
theorem stepWaitsForTheWholeFrame : Obligations.StepWaitsForTheWholeFrame :=
  fun _ plen hs hlen hlegal hc => exec_step_of_ended (AwaitsMore.frame plen hs hlen hlegal hc).iterate_eq

/-- Settles O48: the outcomes before step 8 are those whose iteration leaves CK. -/
theorem stepBeforeTheChecksumLeavesCk : Obligations.StepBeforeTheChecksumLeavesCk := by
  intro s t h hbad hok
  obtain ⟨o, u, hi, rfl⟩ := exec_step_next h
  rw [answered_ck]
  cases iterate_ended hi with
  | needData | noSync | junk | needHeader | badLength | needFrame => rfl
  | badChecksum => exact absurd rfl hbad
  | otherFrame | targetFrame => exact absurd rfl hok

/-! A valid frame, counted (R86, R88). -/

/-- The state with CK, VALID_COUNT and LAST_FRAME as step 10 writes them for the frame at logical 0. -/
def State.counted (s : State) (cls id : Byte) (plen : Nat) : State :=
  { s with
    ck := sumsWord (sumsOf (window s) plen), validCount := s.validCount + 1#32,
    lastFrame := BitVec.ofNat 32 (cls.toNat + 2 ^ 8 * id.toNat + 2 ^ 16 * plen) }

section
variable {s : State} {cls id : Byte} {plen : Nat}

theorem Candidate.parseHeader_cls (h : Candidate s cls id plen) : (parseHeader s).cls = cls :=
  (window_getElem?_eq_some.1 h.cls).2

theorem Candidate.parseHeader_id (h : Candidate s cls id plen) : (parseHeader s).id = id :=
  (window_getElem?_eq_some.1 h.id).2

theorem Candidate.afterCount_eq (h : Candidate s cls id plen) : afterCount s = s.counted cls id plen := by
  obtain ⟨hf, hplen⟩ := h.complete
  unfold afterCount countFrame State.counted
  rw [writeSums_eq_setCk, packCk_frameSums hf, packFrame_eq_ofNat, h.parseHeader_cls, h.parseHeader_id, ← hplen]
  rfl

theorem Candidate.isTarget_iff (h : Candidate s cls id plen) :
    isTarget (parseHeader s) = true ↔ cls = 0x01#8 ∧ id = 0x07#8 ∧ plen = 92 := by
  rw [Machine.isTarget_iff, h.parseHeader_cls, h.parseHeader_id, ← h.complete.2]

/-- A candidate whose trailer agrees goes on to step 10. -/
theorem Candidate.iterate_eq_acceptFrame (h : Candidate s cls id plen) (ht : TrailerAgrees (window s) plen) :
    iterate s = acceptFrame (parseHeader s) (writeSums (frameSums (parseHeader s) s) s) := by
  obtain ⟨hf, rfl⟩ := h.complete
  rw [iterate_of_complete hf, checkFrame, if_pos ((trailerMatches_iff hf).2 ht)]

theorem Candidate.frameLength_eq (h : Candidate s cls id plen) : frameLength (parseHeader s) = 8 + plen := by
  rw [h.complete.2]
  rfl

/-- Step 10 for a frame that is not the target (R88). -/
theorem Candidate.iterate_of_other (h : Candidate s cls id plen) (ht : TrailerAgrees (window s) plen)
    (hg : ¬ (cls = 0x01#8 ∧ id = 0x07#8 ∧ plen = 92)) :
    iterate s = .ended .frameOk ((s.counted cls id plen).dropped (8 + plen)) := by
  have hg' : ¬ isTarget (parseHeader s) = true := mt h.isTarget_iff.1 hg
  rw [h.iterate_eq_acceptFrame ht, acceptFrame, if_neg hg', ← afterCount, h.afterCount_eq, h.frameLength_eq,
    consumeBytes_eq_dropped (s := s.counted cls id plen) h.whole]

/-- The record of the target frame at logical 0 (60_exceptions.md R110). -/
def targetRecord (l : List Byte) : FrameOut := ⟨0x01#8, 0x07#8, 92#16, (l.drop 6).take 92⟩

theorem Candidate.frameRecord_eq (h : Candidate s 0x01#8 0x07#8 92) :
    frameRecord (parseHeader s) s = targetRecord (window s) := by
  have hplen := h.complete.2
  have hbits : (parseHeader s).plen = 92#16 := BitVec.eq_of_toNat_eq hplen.symm
  have hw := h.whole
  unfold frameRecord targetRecord
  rw [payloadBytes_eq (by omega), h.parseHeader_cls, h.parseHeader_id, hbits]
  rfl

theorem Candidate.iterate_eq_emitAndConsume (h : Candidate s 0x01#8 0x07#8 92) (ht : TrailerAgrees (window s) 92) :
    iterate s = emitAndConsume (parseHeader s) (afterCount s) := by
  rw [h.iterate_eq_acceptFrame ht, acceptFrame, if_pos (h.isTarget_iff.2 ⟨rfl, rfl, rfl⟩)]
  rfl

/-- Step 10 for a target frame whose record is taken (R88). -/
theorem Candidate.iterate_of_target (h : Candidate s 0x01#8 0x07#8 92) (ht : TrailerAgrees (window s) 92)
    {p : Pin} (hp : Pin.sample s.foReady = (true, p)) :
    iterate s = .ended .frameOk
      ((((s.counted 0x01#8 0x07#8 92).setFoReady p).emit (.frame (targetRecord (window s)))).dropped 100) := by
  have hw := h.whole
  have hrecord : frameRecord (parseHeader s) (afterCount s) = targetRecord (window s) := h.frameRecord_eq
  rw [h.iterate_eq_emitAndConsume ht, emitAndConsume, hrecord, afterCount_foReady, hp, if_pos rfl, h.frameLength_eq,
    h.afterCount_eq]
  exact congrArg _ (consumeBytes_eq_dropped (s := State.emit _ _) hw)

/-- Step 10 for a target frame whose record is not taken (70_reset_and_hazards.md R127). -/
theorem Candidate.iterate_of_untaken (h : Candidate s 0x01#8 0x07#8 92) (ht : TrailerAgrees (window s) 92)
    {p : Pin} (hp : Pin.sample s.foReady = (false, p)) : iterate s = .hung ((afterCount s).setFoReady p) := by
  rw [h.iterate_eq_emitAndConsume ht, emitAndConsume, afterCount_foReady, hp]
  rfl

end

/-- Settles O39: `Candidate.iterate_of_other`, answered. -/
theorem stepCountsAndConsumesAnotherFrame : Obligations.StepCountsAndConsumesAnotherFrame :=
  fun _ _ _ _ h ht hg => ⟨exec_step_of_ended (h.iterate_of_other ht hg), window_dropped h.whole⟩

/-- Settles O40: `Candidate.iterate_of_target`, answered. -/
theorem stepEmitsATargetFrame : Obligations.StepEmitsATargetFrame :=
  fun _ _ h ht hp => ⟨exec_step_of_ended (h.iterate_of_target ht hp), window_dropped h.whole⟩

theorem exec_step_of_hung {s u : State} (h : iterate s = .hung u) : exec .step s = .fault .downstreamStalled := by
  have hexec : exec .step s = execStep s := rfl
  rw [hexec, execStep, h]

/-- Settles O41: `Candidate.iterate_of_untaken`. -/
theorem stepHangsOnAnUntakenRecord : Obligations.StepHangsOnAnUntakenRecord :=
  fun _ _ h ht hp => exec_step_of_hung (h.iterate_of_untaken ht hp)

/-! A frame as it is built, at the front of the window (00_scope.md §6, R6). -/

/-- What accepting the frame at logical 0 leaves: the frame gone, counted, and its records `fs` emitted. -/
structure Accepted (s u : State) (plen : Nat) (fs : List FrameOut) : Prop where
  window : window u = (window s).drop (8 + plen)
  validCount : u.validCount = s.validCount + 1#32
  frames : u.frames = s.frames ++ fs

/-- A valid frame is accepted, the target with its record (R88). -/
theorem Candidate.accepted {s : State} {cls id : Byte} {plen : Nat} (h : Candidate s cls id plen)
    (ht : TrailerAgrees (window s) plen) (htakes : s.DownstreamTakes) :
    ∃ u, iterate s = .ended .frameOk u ∧
      Accepted s u plen
        (if cls = 0x01#8 ∧ id = 0x07#8 ∧ plen = 92 then [targetRecord (window s)] else []) := by
  split
  · next hg =>
    obtain ⟨rfl, rfl, rfl⟩ := hg
    have hp : Pin.sample s.foReady = (true, (Pin.sample s.foReady).2) := Prod.ext htakes.sample_fst rfl
    refine ⟨_, h.iterate_of_target ht hp, window_dropped (s := State.emit _ _) h.whole, rfl, ?_⟩
    exact frames_emit_frame ((s.counted 0x01#8 0x07#8 92).setFoReady _) _
  · next hg =>
    exact ⟨_, h.iterate_of_other ht hg, window_dropped (s := s.counted cls id plen) h.whole, rfl,
      (List.append_nil _).symm⟩

theorem validFrame_eq (cls id : Byte) (payload rest : List Byte) :
    validFrame cls id payload ++ rest =
      Config.sync0 :: Config.sync1 :: cls :: id :: BitVec.ofNat 8 payload.length ::
        BitVec.ofNat 8 (payload.length / 256) :: (payload ++ (fletcher8 (checkedBytes cls id payload)).1 ::
          (fletcher8 (checkedBytes cls id payload)).2 :: rest) := by
  simp [validFrame, checkedBytes]

/-- A built frame of legal length at the front of the window is a candidate whose trailer agrees. -/
theorem candidate_of_validFrame {s : State} {cls id : Byte} {payload rest : List Byte}
    (hwin : window s = validFrame cls id payload ++ rest) (hlegal : payload.length ≤ s.params.maxPayload)
    (hmax : s.params.maxPayload < 65536) :
    Candidate s cls id payload.length ∧ TrailerAgrees (window s) payload.length := by
  rw [validFrame_eq] at hwin
  exact ⟨candidate_of_window hwin (lengthBytes_toNat (by omega)) hlegal, (trailerAgrees_iff_of_eq hwin).2 rfl⟩

theorem validFrame_length (cls id : Byte) (payload : List Byte) :
    (validFrame cls id payload).length = 8 + payload.length := by
  simp only [validFrame, checkedBytes, List.length_cons, List.length_append, List.length_nil]
  omega

theorem targetRecord_validFrame {payload : List Byte} (h : payload.length = 92) (rest : List Byte) :
    targetRecord (validFrame 0x01#8 0x07#8 payload ++ rest) = ⟨0x01#8, 0x07#8, 92#16, payload⟩ := by
  rw [validFrame_eq]
  simp [targetRecord, ← h]

/-- Settles O42: the built frame is a valid candidate, accepted. -/
theorem builtFrameIsAccepted : Obligations.BuiltFrameIsAccepted := by
  intro s cls id payload rest hinv htakes hlegal hwin
  obtain ⟨hroom, hcap, -⟩ := hinv.params
  obtain ⟨hc, ht⟩ := candidate_of_validFrame hwin hlegal (by omega)
  obtain ⟨u, hi, hu⟩ := hc.accepted ht htakes
  refine ⟨_, exec_step_of_ended hi, rfl, ?_, hu.validCount, ?_⟩
  · rw [window_answered, hu.window, hwin, List.drop_left' (validFrame_length cls id payload)]
  · rw [frames_answered, hu.frames]
    congr 1
    split
    · next hg =>
      obtain ⟨rfl, rfl, hlen⟩ := hg
      rw [hwin, targetRecord_validFrame hlen]
    · rfl

end Sys2Proof.Machine

/-! PROOFS. RUN: how it ends and within how many iterations, and that it does what STEPs do (41_extractor.md §2). -/

namespace Sys2Proof.Machine

/-! What the continues of a RUN leave. -/

section
variable {s v : State} {os : List IterOutcome}

/-- Every continue removes a byte (R90). -/
theorem Continues.count_le (h : Continues s os v) : v.count + os.length ≤ s.count := by
  induction h with
  | nil => exact Nat.le_refl _
  | cons _ hi ho _ ih =>
    have hlt := iterate_continue_count_lt hi ho
    simp only [State.setCancel_count, State.setRunCount_count, List.length_cons] at hlt ih ⊢
    omega

theorem Continues.runCount {k : Nat} (h : Continues s os v) (hk : s.runCount = some k) :
    v.runCount = some (k + os.length) := by
  induction h generalizing k with
  | nil => exact hk
  | cons _ hi _ _ ih =>
    have hrun := (iterate_frame hi).runCount
    rw [State.setCancel_runCount, hk] at hrun
    rw [ih (k := k + 1) (by rw [State.setRunCount_runCount, hrun]; rfl), List.length_cons, Nat.add_right_comm]
    rfl

/-- One look at `cancel` for each continue, each of them 0. -/
theorem Continues.cancel (h : Continues s os v) :
    v.cancel = s.cancel.rest os.length ∧ ∀ j < os.length, s.cancel.value j = false := by
  induction h with
  | nil => exact ⟨rfl, fun j hj => absurd hj (Nat.not_lt_zero j)⟩
  | @cons s t v o os hc hi _ _ ih =>
    have hrest : t.cancel = s.cancel.rest 1 := by
      rw [(iterate_frame hi).cancel, State.setCancel_cancel, Pin.sample_eq]
    rw [Pin.sample_eq] at hc
    rw [State.setRunCount_cancel, hrest] at ih
    refine ⟨by rw [ih.1, Pin.rest_rest, List.length_cons, Nat.add_comm], fun j hj => ?_⟩
    cases j with
    | zero => exact hc
    | succ j =>
      have := ih.2 j (Nat.lt_of_succ_lt_succ hj)
      rwa [Pin.value_rest, Nat.add_comm] at this

theorem Continues.extracted (h : Continues s os v) : Extracted s v :=
  h.keeps (P := Extracted s) (fun _ _ h => h.trans (extracted_setCancel _ _))
    (fun _ _ h => h.trans (extracted_setRunCount _ _)) (fun _ _ _ h hi => h.trans (extracted_of_ended hi)) (.refl s)

end

/-! The outcomes' codes (10_state.md R23). -/

theorem stop_code_mem {o : IterOutcome} : o.isStop = true → o.code.toNat ∈ [0, 1, 3, 5] := by
  cases o <;> decide

theorem continue_code {o : IterOutcome} : o.isStop = false → IsContinueCode o.code.toNat := by
  unfold IsContinueCode
  cases o <;> decide

/-! The three ways a RUN that responds ends (R95). -/

/-- How a RUN with a cap of `cap` iterations ends after the continues `os` led it to `v`: `RunEnds cap os v k r u`
says that it ends for the reason `r` after `k` iterations, in the state `u` before its response. -/
inductive RunEnds (cap : Nat) (os : List IterOutcome) (v : State) : Nat → RunReason → State → Prop where
  | stop (o : IterOutcome) (w : State) (hlt : os.length < cap) (hc : (Pin.sample v.cancel).1 = false)
      (hi : iterate (v.setCancel (Pin.sample v.cancel).2) = .ended o w) (ho : o.isStop = true) :
      RunEnds cap os v (os.length + 1) (.stop o) (w.setRunCount (w.runCount.map (· + 1)))
  | cancelled (hle : os.length ≤ cap) (hc : (Pin.sample v.cancel).1 = true) :
      RunEnds cap os v os.length .cancelled (v.setCancel (Pin.sample v.cancel).2)
  | capped (hcap : os.length = cap) (hc : (Pin.sample v.cancel).1 = false) :
      RunEnds cap os v os.length .capExceeded (clearBuffer (v.setCancel (Pin.sample v.cancel).2))

/-- A RUN that responds is its continues and one of the three endings. -/
theorem exec_run_ends {s t : State} (h : exec .run s = .next t) :
    ∃ os v k r u, Continues (s.setRunCount (some 0)) os v ∧ RunEnds s.params.iterCap os v k r u ∧
      finishRun r u = .next t := by
  obtain ⟨r, u, hfin, hu⟩ := execRun_next h
  obtain ⟨os, v, hcont, hend⟩ := runTurns_continues s.params.iterCap (s.setRunCount (some 0))
  rw [← runLoop] at hend
  rcases hend with ⟨hcap, hloop⟩ | ⟨hlt, hloop, hlast⟩
  · rcases hu with hu | ⟨v', hv', hb⟩
    · rw [hloop] at hu
      cases hu
    · obtain rfl : v = v' := RunProgress.goesOn.inj (hloop.symm.trans hv')
      rcases capBoundary_cases v with ⟨hc, hcb⟩ | ⟨hc, hcb⟩
      · rw [hcb] at hb
        cases hb
        exact ⟨os, v, _, _, _, hcont, .cancelled hcap.le hc, hfin⟩
      · rw [hcb] at hb
        cases hb
        exact ⟨os, v, _, _, _, hcont, .capped hcap hc, hfin⟩
  · rcases hu with hu | ⟨v', hv', -⟩
    · have hcase := runTurn_case v
      rw [← hloop, hu] at hcase
      cases hcase with
      | cancelled hc => exact ⟨os, v, _, _, _, hcont, .cancelled hlt.le hc, hfin⟩
      | stop o w hc hi ho => exact ⟨os, v, _, _, _, hcont, .stop o w hlt hc hi ho, hfin⟩
    · exact absurd (hloop.symm.trans hv') (hlast v')

section
variable {s v u : State} {os : List IterOutcome} {k : Nat} {r : RunReason}

/-- `k` is counted, and bounded by the cap and by the bytes there are (R96). -/
theorem RunEnds.bounds (h : RunEnds s.params.iterCap os v k r u) (hcont : Continues (s.setRunCount (some 0)) os v) :
    u.runCount = some k ∧ k ≤ s.params.iterCap ∧ k ≤ s.count + 1 := by
  have hcount : v.count + os.length ≤ s.count := hcont.count_le
  have hrun : v.runCount = some os.length := by simpa using hcont.runCount (k := 0) rfl
  cases h with
  | stop o w hlt _ hi =>
    refine ⟨?_, hlt, by omega⟩
    rw [State.setRunCount_runCount, (iterate_frame hi).runCount, State.setCancel_runCount, hrun]
    rfl
  | cancelled hle => exact ⟨hrun, hle, by omega⟩
  | capped hcap => exact ⟨hrun, hcap.le, by omega⟩

/-- CAP_EXCEEDED has run ITER_CAP continues, each of which removed a byte, and clears the buffer (R96). -/
theorem RunEnds.capExceeded (h : RunEnds s.params.iterCap os v k .capExceeded u)
    (hcont : Continues (s.setRunCount (some 0)) os v) :
    s.params.iterCap ≤ s.count ∧ k = s.params.iterCap ∧ window u = [] := by
  have hcount : v.count + os.length ≤ s.count := hcont.count_le
  cases h with
  | capped hcap => exact ⟨by omega, hcap, window_clearBuffer _⟩

theorem RunEnds.extracted (h : RunEnds s.params.iterCap os v k r u) (hcont : Continues (s.setRunCount (some 0)) os v) :
    Extracted s u := by
  have hv : Extracted s (v.setCancel (Pin.sample v.cancel).2) :=
    ((extracted_setRunCount s _).trans hcont.extracted).trans (extracted_setCancel v _)
  cases h with
  | stop o w _ _ hi => exact (hv.trans (extracted_of_ended hi)).trans (extracted_setRunCount w _)
  | cancelled => exact hv
  | capped => exact hv.trans (extracted_clearBuffer _)

/-- A RUN ends for no continue (R95). -/
theorem RunEnds.code_mem (h : RunEnds s.params.iterCap os v k r u) : r.code.toNat ∈ [0, 1, 3, 5, 8, 9] := by
  cases h with
  | stop o _ _ _ _ ho =>
    have hmem := stop_code_mem ho
    simp only [List.mem_cons, List.not_mem_nil, or_false] at hmem ⊢
    simp only [RunReason.code]
    omega
  | cancelled => decide
  | capped => decide

end

/-- A RUN's response: `k` and the reason (30_encoding.md R59). -/
theorem finishRun_eq_around {r : RunReason} {u : State} {k : Nat} (hk : u.runCount = some k) :
    finishRun r u = .next (u.around u.cancel none (BitVec.ofNat 32 r.code.toNat) u.inputs
      (u.out ++ [.response ⟨.ok, BitVec.ofNat 32 (2 ^ 16 * k + r.code.toNat)⟩])) := by
  rw [finishRun_eq, hk, outcomeWord_eq_ofNat, Option.getD_some, packRun_eq_ofNat]
  rfl

/-- Settles O49: the RUN responds (O20), with the `k` and the reason of its ending. -/
theorem runAnswersItsReasonAndCount : Obligations.RunAnswersItsReasonAndCount := by
  intro s htakes
  obtain ⟨t, ht⟩ := exec_run_of_downstreamTakes htakes
  obtain ⟨os, v, k, r, u, hcont, hend, hfin⟩ := exec_run_ends ht
  obtain ⟨hk, hcap, -⟩ := hend.bounds hcont
  obtain ⟨hparams, hinputs, herr, hbuf, ⟨fs, hout⟩, hwin⟩ := hend.extracted hcont
  rw [finishRun_eq_around hk] at hfin
  cases hfin
  exact ⟨_, k, r.code.toNat, fs, ht, hend.code_mem, rfl, congrArg (· ++ _) hout, hcap, rfl, hparams, herr, hinputs,
    fun p => congrArg (Memory.read · p) hbuf, hwin⟩

/-- The word of a RUN response names one `k` and one reason (30_encoding.md R59). -/
theorem runWord_inj {k k' c c' : Nat} (hk : k ≤ 65535) (hk' : k' ≤ 65535) (hc : c < 16) (hc' : c' < 16)
    (h : BitVec.ofNat 32 (2 ^ 16 * k + c) = BitVec.ofNat 32 (2 ^ 16 * k' + c')) : k = k' ∧ c = c' := by
  have := congrArg BitVec.toNat h
  simp only [BitVec.toNat_ofNat] at this
  omega

theorem code_eq_capExceeded {r : RunReason} : r.code.toNat = 8 → r = .capExceeded := by
  rcases r with o | _ | _
  · cases o <;> decide
  · exact fun _ => rfl
  · decide

/-- Settles O51: the response's `k` and reason are those of the RUN's ending, and `RunEnds.bounds` bounds them. -/
theorem runEndsWithinItsBound : Obligations.RunEndsWithinItsBound := by
  intro s t fs k reason hinv ht hk hreason hout
  obtain ⟨-, -, -, hcap16⟩ := hinv.params
  obtain ⟨os, v, k', r, u, hcont, hend, hfin⟩ := exec_run_ends ht
  obtain ⟨hrun, hcap, hcount⟩ := hend.bounds hcont
  rw [finishRun_eq_around hrun] at hfin
  cases hfin
  obtain ⟨-, hlast⟩ := List.append_inj' hout rfl
  have hword := congrArg Response.data (OutEvent.response.inj (List.cons.inj hlast).1)
  obtain ⟨rfl, hcode⟩ := runWord_inj (hcap.trans hcap16) hk r.code.isLt (by omega) hword
  refine ⟨Nat.le_min.2 ⟨hcap, hcount⟩, fun h8 => ?_⟩
  obtain rfl := code_eq_capExceeded (hcode.trans h8)
  exact hend.capExceeded hcont

/-- Settles O54: the reasons of a RUN that was not cancelled, and what each leaves. -/
theorem runLeavesLessThanAFrame : Obligations.RunLeavesLessThanAFrame := by
  intro s t _ ht hnot
  obtain ⟨r, hcode, hr⟩ := exec_run_left ht
  have hleft : RunLeft t r := hr.resolve_left fun hc => hnot (by rw [hcode, hc]; rfl)
  cases hleft with
  | waits o hwait =>
    cases hwait with
    | data hc => omega
    | header _ hc => omega
    | frame plen _ _ hlegal hc => omega
  | noSync hc => omega
  | capped hc => omega

theorem exec_run_of_ended {s u : State} {r : RunReason} (h : runLoop s = .ended r u) :
    exec .run s = finishRun r u := by
  have hexec : exec .run s = execRun s := rfl
  rw [hexec, execRun, h]

theorem exec_run_of_goesOn {s v u : State} {r : RunReason} (h : runLoop s = .goesOn v) (hb : capBoundary v = (r, u)) :
    exec .run s = finishRun r u := by
  have hexec : exec .run s = execRun s := rfl
  rw [hexec, execRun, h]
  simp only [hb]

/-- Settles O50: at the first boundary, be it the cap's, `cancel` ends the RUN. -/
theorem runCancelledAtTheStartRunsNothing : Obligations.RunCancelledAtTheStartRunsNothing := by
  intro s p hp
  have hcancel : Pin.sample (s.setRunCount (some 0)).cancel = (true, p) := hp
  have hexec : exec .run s = finishRun .cancelled ((s.setRunCount (some 0)).setCancel p) := by
    cases hcap : s.params.iterCap with
    | zero =>
      refine exec_run_of_goesOn (v := s.setRunCount (some 0)) (by rw [runLoop, hcap]; rfl) ?_
      rw [capBoundary, sampleCancel, hcancel]
      rfl
    | succ n =>
      have hturn : runTurn (s.setRunCount (some 0)) = .ended .cancelled ((s.setRunCount (some 0)).setCancel p) := by
        rw [runTurn, sampleCancel, hcancel]
        rfl
      exact exec_run_of_ended (by rw [runLoop, hcap, runTurns, hturn])
  exact hexec.trans (finishRun_eq_around (k := 0) rfl)

/-! RUN's iterations as STEPs (R94, R95). -/

/-- A STEP from the port where a RUN's iteration stands does the iteration and answers its code. -/
theorem step_around {s t : State} {o : IterOutcome} {p : Pin} (hi : iterate (s.setCancel p) = .ended o t) :
    ∃ fs : List FrameOut, t.out = s.out ++ fs.map .frame ∧ ∀ c l rest out,
      step (s.around c none l (.command (encode .step) :: rest) out) =
        .next (t.around c none (BitVec.ofNat 32 o.code.toNat) rest
          (out ++ fs.map .frame ++ [.response ⟨.ok, BitVec.ofNat 32 o.code.toNat⟩])) := by
  obtain ⟨fs, hout, haround⟩ := iterate_around hi
  refine ⟨fs, hout, fun c l rest out => ?_⟩
  rw [step_legal (i := .step) (rest := rest) rfl (decode_encode rfl)]
  exact exec_step_of_ended (haround c none l rest out)

/-- What STEPs with these outcomes add to an output history: the records `fs`, and their responses. -/
structure StepsAdd (os : List IterOutcome) (fs : List FrameOut) (out out' : List OutEvent) : Prop where
  frames : out'.filterMap OutEvent.frame? = out.filterMap OutEvent.frame? ++ fs
  responses : out'.filterMap OutEvent.response? =
    out.filterMap OutEvent.response? ++ stepResponses (os.map fun o => o.code.toNat)

theorem stepsAdd_nil (out : List OutEvent) : StepsAdd [] [] out out := ⟨by simp, by simp [stepResponses]⟩

theorem stepsAdd_one (o : IterOutcome) (fs : List FrameOut) (out : List OutEvent) :
    StepsAdd [o] fs out (out ++ fs.map .frame ++ [.response ⟨.ok, BitVec.ofNat 32 o.code.toNat⟩]) where
  frames := by simp [List.filterMap_append, OutEvent.frame?, List.filterMap_map, Function.comp_def]
  responses := by
    simp [List.filterMap_append, OutEvent.response?, List.filterMap_map, Function.comp_def, stepResponses]

theorem StepsAdd.trans {os os' : List IterOutcome} {fs fs' : List FrameOut} {out out' out'' : List OutEvent}
    (h : StepsAdd os fs out out') (h' : StepsAdd os' fs' out' out'') : StepsAdd (os ++ os') (fs ++ fs') out out'' where
  frames := by rw [h'.frames, h.frames, List.append_assoc]
  responses := by simp [h'.responses, h.responses, stepResponses]

/-- The continues of a RUN as STEPs from the port: as many steps lead to the same state, but for what no iteration
looks at, and add the same records, each STEP with its response. -/
theorem Continues.runs_steps {s v : State} {os : List IterOutcome} (h : Continues s os v) :
    ∃ fs : List FrameOut, v.out = s.out ++ fs.map .frame ∧ ∀ c l rest out, ∃ l' out',
      StepsAdd os fs out out' ∧
        runs os.length (s.around c none l (issue (List.replicate os.length .step) ++ rest) out) =
          .next (v.around c none l' rest out') := by
  induction h with
  | nil s => exact ⟨[], by simp, fun c l rest out => ⟨l, out, stepsAdd_nil out, rfl⟩⟩
  | @cons s t v o os _ hi _ _ ih =>
    obtain ⟨fs, hout, hstep⟩ := step_around hi
    obtain ⟨fs', hout', hruns⟩ := ih
    refine ⟨fs ++ fs', by rw [hout', State.setRunCount_out, hout]; simp, fun c l rest out => ?_⟩
    obtain ⟨l', out', hadd, hruns⟩ := hruns c (BitVec.ofNat 32 o.code.toNat) rest
      (out ++ fs.map .frame ++ [.response ⟨.ok, BitVec.ofNat 32 o.code.toNat⟩])
    exact ⟨l', out', (stepsAdd_one o fs out).trans hadd, (runs_succ_of_next _ (hstep c l _ out)).trans hruns⟩

theorem continues_codes {s v : State} {os : List IterOutcome} (h : Continues s os v) :
    ∀ c ∈ os.map (fun o => o.code.toNat), IsContinueCode c := by
  induction h with
  | nil => simp
  | cons _ _ ho _ ih =>
    rintro c hc
    rcases List.mem_cons.1 hc with rfl | hc
    · exact continue_code ho
    · exact ih c hc

theorem issue_replicate_succ (n : Nat) :
    issue (List.replicate n .step) ++ [.command (encode .step)] = issue (List.replicate (n + 1) .step) := by
  rw [List.replicate_succ', issue_append]
  rfl

theorem around_self {s : State} (hidle : s.runCount = none) (l : List HostInput) :
    { s with inputs := l } = (s.setRunCount (some 0)).around s.cancel none s.lastOutcome l s.out := by
  rw [← hidle]
  rfl

/-- A RUN that ends in `w` leaves what `ranTo` says of the STEPs that lead to `w`, but for what no iteration looks
at. -/
theorem ranTo_around {s w : State} {fs : List FrameOut} {k looks : Nat} {r : RunReason} {l : Word}
    {out : List OutEvent} (hk : w.runCount = some k) (hcancel : w.cancel = s.cancel.rest looks)
    (hinputs : w.inputs = s.inputs) (hout : w.out = s.out ++ fs.map .frame) :
    finishRun r w = .next (s.ranTo (w.around s.cancel none l [] out) fs k r.code.toNat looks) := by
  rw [finishRun_eq_around hk, hcancel, hinputs, hout]
  rfl

/-- Settles O52: the RUN's continues as STEPs (`Continues.runs_steps`), and its ending: one more STEP for a stop, none
for CANCELLED and CAP_EXCEEDED. -/
theorem runIsRepeatedStep : Obligations.RunIsRepeatedStep := by
  intro s t hidle ht
  obtain ⟨os, v, k, r, u, hcont, hend, hfin⟩ := exec_run_ends ht
  obtain ⟨hk, hcap, -⟩ := hend.bounds hcont
  have hext := hend.extracted hcont
  obtain ⟨hvcancel, hzero⟩ := hcont.cancel
  have hlook : Pin.sample v.cancel = (s.cancel.value os.length, s.cancel.rest (os.length + 1)) := by
    rw [Pin.sample_eq, hvcancel, Pin.value_rest, Pin.rest_rest, State.setRunCount_cancel]
    rfl
  obtain ⟨fs, hvout, hruns⟩ := hcont.runs_steps
  rw [State.setRunCount_out] at hvout
  have hcodes := continues_codes hcont
  cases hend with
  | stop o w hlt hc hi ho =>
    obtain ⟨fs', hwout, hstep⟩ := step_around hi
    obtain ⟨l', out', hadd, hruns⟩ := hruns s.cancel s.lastOutcome (.command (encode .step) :: []) s.out
    have hadd := hadd.trans (stepsAdd_one o fs' out')
    have hsteps := (runs_add 1 hruns).trans (runs_succ_of_next 0 (hstep s.cancel l' [] out'))
    rw [issue_replicate_succ, ← around_self hidle] at hsteps
    refine ⟨os.length + 1, _, fs ++ fs', _, hcap, by simp, fun j hj => ?_, hsteps, hadd.frames, hadd.responses,
      .inl ⟨os.map fun o => o.code.toNat, o.code.toNat, by simp, hcodes, stop_code_mem ho, ?_⟩⟩
    · rcases Nat.lt_succ_iff_lt_or_eq.1 hj with hj | rfl
      · exact hzero j hj
      · rwa [hlook] at hc
    · have hcancel : w.cancel = s.cancel.rest (os.length + 1) := by
        rw [(iterate_frame hi).cancel, State.setCancel_cancel, hlook]
      have hout : w.out = s.out ++ (fs ++ fs').map .frame := by
        rw [hwout, hvout, List.map_append, List.append_assoc]
      exact Host.Outcome.next.inj (hfin.symm.trans (ranTo_around hk hcancel hext.inputs hout))
  | cancelled hle hc =>
    obtain ⟨l', out', hadd, hruns⟩ := hruns s.cancel s.lastOutcome [] s.out
    rw [List.append_nil, ← around_self hidle] at hruns
    rw [hlook] at hc hfin hk hext
    exact ⟨os.length, _, fs, _, hcap, List.length_map _, hzero, hruns, hadd.frames, hadd.responses,
      .inr (.inl ⟨hcodes, hc, Host.Outcome.next.inj (hfin.symm.trans (ranTo_around hk rfl hext.inputs hvout))⟩)⟩
  | capped hcap' hc =>
    obtain ⟨l', out', hadd, hruns⟩ := hruns s.cancel s.lastOutcome [] s.out
    rw [List.append_nil, ← around_self hidle] at hruns
    rw [hlook] at hc hfin hk hext
    exact ⟨os.length, _, fs, _, hcap, List.length_map _, hzero, hruns, hadd.frames, hadd.responses,
      .inr (.inr ⟨hcodes, hcap', hc, Host.Outcome.next.inj
        (hfin.symm.trans (ranTo_around (l := l') (out := out') hk rfl hext.inputs hvout))⟩)⟩

end Sys2Proof.Machine

/-! PROOFS. One target frame in noise, appended in chunks with a RUN after each (41_extractor.md R98). -/

namespace Sys2Proof.Machine

/-! Sync patterns in a part of a byte sequence. -/

theorem SyncIn.lt_length {l : List Byte} {i : Nat} (h : SyncIn l i) : i + 1 < l.length :=
  (List.getElem?_eq_some_iff.1 h.2).1

theorem SyncIn.append {l : List Byte} {i : Nat} (h : SyncIn l i) (m : List Byte) : SyncIn (l ++ m) i := by
  have hlt := h.lt_length
  rwa [SyncIn, List.getElem?_append_left (by omega), List.getElem?_append_left hlt]

theorem syncIn_of_append {l m : List Byte} {i : Nat} (h : SyncIn (l ++ m) i) (hi : i + 1 < l.length) : SyncIn l i := by
  rwa [SyncIn, List.getElem?_append_left (by omega), List.getElem?_append_left hi] at h

theorem NoSync.of_append {l m : List Byte} (h : NoSync (l ++ m)) : NoSync l := fun i hi => h i (hi.append m)

theorem NoSync.drop {l : List Byte} (h : NoSync l) (n : Nat) : NoSync (l.drop n) :=
  fun i hi => h (n + i) (syncIn_drop.1 hi)

/-- A sync pattern's first byte after noise makes no pattern with it. -/
theorem not_syncIn_before {pre l : List Byte} (h : NoSync pre) {j : Nat} (hj : j < pre.length) :
    ¬ SyncIn (pre ++ Config.sync0 :: l) j := by
  intro hs
  by_cases hlt : j + 1 < pre.length
  · exact h j (syncIn_of_append hs hlt)
  · have hnext : (pre ++ Config.sync0 :: l)[j + 1]? = some Config.sync0 := by
      rw [show j + 1 = pre.length by omega, List.getElem?_append_right (Nat.le_refl _), Nat.sub_self]
      rfl
    exact absurd (hnext.symm.trans hs.2) (by decide)

/-! A pin at one level. -/

theorem Pin.Always.rest {p : Pin} {b : Bool} (h : p.Always b) (n : Nat) : (p.rest n).Always b :=
  ⟨h.1, fun d hd => h.2 d (List.mem_of_mem_drop hd)⟩

/-! How far the stream has come. -/

/-- Where FX stands in a stream of noise, the target frame of `payload` and the noise `after`: `Phase s₀ payload after
rem m s` says that `rem` is yet to be appended, that `m` continues can come before FX waits, and what of the frame has
been counted and emitted since `s₀`. -/
inductive Phase (s₀ : State) (payload after rem : List Byte) : Nat → State → Prop where
  | searching {s : State} (pre : List Byte) (hpre : NoSync pre)
      (hstream : window s ++ rem = pre ++ (validFrame 0x01#8 0x07#8 payload ++ after))
      (hvalid : s.validCount = s₀.validCount) (hframes : s.frames = s₀.frames) : Phase s₀ payload after rem 2 s
  | atFrame {s : State} (hstream : window s ++ rem = validFrame 0x01#8 0x07#8 payload ++ after)
      (hvalid : s.validCount = s₀.validCount) (hframes : s.frames = s₀.frames) : Phase s₀ payload after rem 1 s
  | reported {s : State} (hno : NoSync (window s ++ rem)) (hvalid : s.validCount = s₀.validCount + 1#32)
      (hframes : s.frames = s₀.frames ++ [⟨0x01#8, 0x07#8, 92#16, payload⟩]) : Phase s₀ payload after rem 0 s

section
variable {s₀ s t : State} {payload after rem : List Byte} {m : Nat}

theorem Phase.congr (h : Phase s₀ payload after rem m s) (hw : window t = window s)
    (hv : t.validCount = s.validCount) (hf : t.frames = s.frames) : Phase s₀ payload after rem m t := by
  cases h with
  | searching pre hpre hstream hvalid hframes =>
    exact .searching pre hpre (hw ▸ hstream) (hv.trans hvalid) (hf.trans hframes)
  | atFrame hstream hvalid hframes => exact .atFrame (hw ▸ hstream) (hv.trans hvalid) (hf.trans hframes)
  | reported hno hvalid hframes => exact .reported (hw ▸ hno) (hv.trans hvalid) (hf.trans hframes)

/-- An appended byte goes from the bytes to come into the window. -/
theorem Phase.append {b : Byte} (h : Phase s₀ payload after (b :: rem) m s) (hw : window t = window s ++ [b])
    (hv : t.validCount = s.validCount) (hf : t.frames = s.frames) : Phase s₀ payload after rem m t := by
  have hmove : window t ++ rem = window s ++ b :: rem := by rw [hw, List.append_assoc, List.singleton_append]
  cases h with
  | searching pre hpre hstream hvalid hframes =>
    exact .searching pre hpre (hmove.trans hstream) (hv.trans hvalid) (hf.trans hframes)
  | atFrame hstream hvalid hframes => exact .atFrame (hmove.trans hstream) (hv.trans hvalid) (hf.trans hframes)
  | reported hno hvalid hframes => exact .reported (hmove ▸ hno) (hv.trans hvalid) (hf.trans hframes)

end

/-- What an iteration does to a phase: a continue leaves fewer continues to come, and a stop with nothing left to
append comes after the report only. -/
def GoesOn (s₀ : State) (payload after rem : List Byte) (n : Nat) (i : Iteration) : Prop :=
  ∃ o t m, i = .ended o t ∧ Phase s₀ payload after rem m t ∧
    (o.isStop = true ∧ (rem = [] → m = 0) ∨ o.isStop = false ∧ m < n)

section
variable {s₀ s : State} {payload after rem : List Byte}

/-- In noise nothing is found; the newest byte stays. -/
theorem iterate_reported (h : Phase s₀ payload after rem 0 s) : GoesOn s₀ payload after rem 0 (iterate s) := by
  cases h with
  | reported hno hvalid hframes =>
    by_cases hc : s.count < 2
    · exact ⟨_, _, 0, iterate_of_needData hc, .reported hno hvalid hframes, .inl ⟨rfl, fun _ => rfl⟩⟩
    · refine ⟨_, _, 0, iterate_of_noSync (Nat.not_lt.1 hc) hno.of_append, .reported ?_ hvalid hframes,
        .inl ⟨rfl, fun _ => rfl⟩⟩
      rw [window_consumeBytes, ← List.drop_append_of_le_length (by rw [window_length]; omega)]
      exact hno.drop _

/-- The whole frame at the front of the window is accepted, and noise follows it. -/
theorem iterate_wholeFrame (hlen : payload.length = 92) (hafter : NoSync after)
    (hmax : s.params.maxPayload = 4096) (htakes : s.DownstreamTakes)
    (hstream : window s ++ rem = validFrame 0x01#8 0x07#8 payload ++ after)
    (hvalid : s.validCount = s₀.validCount) (hframes : s.frames = s₀.frames) (hw : 100 ≤ s.count) :
    GoesOn s₀ payload after rem 1 (iterate s) := by
  obtain ⟨rest, hrest⟩ : validFrame 0x01#8 0x07#8 payload <+: window s :=
    List.prefix_of_prefix_length_le ⟨after, hstream.symm⟩ (List.prefix_append _ rem)
      (by rw [validFrame_length, window_length]; omega)
  have hleft : rest ++ rem = after := by
    rwa [← hrest, List.append_assoc, List.append_cancel_left_eq] at hstream
  have hrest := hrest.symm
  obtain ⟨hc, ht⟩ := candidate_of_validFrame hrest (by omega) (by omega)
  obtain ⟨u, hi, hu⟩ := hc.accepted ht htakes
  rw [hrest, if_pos ⟨rfl, rfl, hlen⟩, targetRecord_validFrame hlen] at hu
  refine ⟨_, u, 0, hi, .reported ?_ ?_ ?_, .inr ⟨rfl, Nat.one_pos⟩⟩
  · rwa [hu.window, hrest, List.drop_left' (validFrame_length _ _ payload), hleft]
  · rw [hu.validCount, hvalid]
  · rw [hu.frames, hframes]

/-- With the frame's first byte oldest, FX waits for all of the frame and then reports it. -/
theorem iterate_atFrame (hlen : payload.length = 92) (hafter : NoSync after) (hmax : s.params.maxPayload = 4096)
    (htakes : s.DownstreamTakes) (h : Phase s₀ payload after rem 1 s) :
    GoesOn s₀ payload after rem 1 (iterate s) := by
  have hphase := h
  cases h with
  | atFrame hstream hvalid hframes =>
    have hsize : s.count + rem.length = 100 + after.length := by
      simpa [validFrame_length, hlen] using congrArg List.length hstream
    have waits {o : IterOutcome} (hw : AwaitsMore s o) (hc : s.count < 100) :
        GoesOn s₀ payload after rem 1 (iterate s) :=
      ⟨o, s, 1, hw.iterate_eq, hphase, .inl ⟨hw.isStop, by rintro rfl; simp at hsize; omega⟩⟩
    have hbyte (i : Nat) (hi : i < s.count) : (window s)[i]? = (validFrame 0x01#8 0x07#8 payload ++ after)[i]? := by
      rw [← hstream, List.getElem?_append_left (by simpa using hi)]
    have hsync (h2 : 2 ≤ s.count) : SyncIn (window s) 0 := ⟨hbyte 0 (by omega), hbyte 1 (by omega)⟩
    have hplen (h6 : 6 ≤ s.count) : PayloadLen (window s) 92 := by
      refine ⟨92#8, 0#8, (hbyte 4 (by omega)).trans ?_, (hbyte 5 (by omega)).trans ?_, rfl⟩
      · simp [validFrame_eq, hlen]
      · simp [validFrame_eq, hlen]
    by_cases h2 : s.count < 2
    · exact waits (.data (by omega)) (by omega)
    by_cases h6 : s.count < 6
    · exact waits (.header (hsync (by omega)) h6) (by omega)
    by_cases hw : s.count < 100
    · exact waits (.frame 92 (hsync (by omega)) (hplen (by omega)) (by omega) hw) hw
    exact iterate_wholeFrame hlen hafter hmax htakes hstream hvalid hframes (Nat.not_lt.1 hw)

/-- Junk before the frame goes, and nothing of the frame with it. -/
theorem iterate_searching (hlen : payload.length = 92) (hafter : NoSync after) (hmax : s.params.maxPayload = 4096)
    (htakes : s.DownstreamTakes) (h : Phase s₀ payload after rem 2 s) :
    GoesOn s₀ payload after rem 2 (iterate s) := by
  have hphase := h
  cases h with
  | searching pre hpre hstream hvalid hframes =>
    have hsize : s.count + rem.length = pre.length + (100 + after.length) := by
      simpa [validFrame_length, hlen] using congrArg List.length hstream
    obtain ⟨tail, htail⟩ : ∃ tail,
        validFrame 0x01#8 0x07#8 payload ++ after = Config.sync0 :: Config.sync1 :: tail := ⟨_, rfl⟩
    have hbefore (j : Nat) (hj : j < pre.length) : ¬ SyncIn (window s) j := fun hs => by
      have hs := hs.append rem
      rw [hstream, htail] at hs
      exact not_syncIn_before hpre hj hs
    by_cases hshort : s.count < pre.length + 2
    · have hrem : rem ≠ [] := by rintro rfl; simp at hsize; omega
      by_cases h2 : s.count < 2
      · exact ⟨_, _, 2, iterate_of_needData h2, hphase, .inl ⟨rfl, fun h => absurd h hrem⟩⟩
      · have hno : NoSync (window s) := fun i hi => hbefore i (by have := hi.lt; omega) hi
        refine ⟨_, _, 2, iterate_of_noSync (Nat.not_lt.1 h2) hno,
          .searching (pre.drop (s.count - 1)) (hpre.drop _) ?_ hvalid hframes, .inl ⟨rfl, fun h => absurd h hrem⟩⟩
        rw [window_consumeBytes, ← List.drop_append_of_le_length (by rw [window_length]; omega), hstream,
          List.drop_append_of_le_length (by omega)]
    · have hsync : SyncIn (window s) pre.length := by
        refine syncIn_of_append (m := rem) ?_ (by rw [window_length]; omega)
        rw [hstream, htail]
        simp [SyncIn]
      by_cases hpos : 0 < pre.length
      · refine ⟨_, _, 1, iterate_of_junk hpos hsync hbefore, .atFrame ?_ hvalid hframes,
          .inr ⟨rfl, Nat.lt_succ_self 1⟩⟩
        rw [window_consumeBytes, ← List.drop_append_of_le_length (by rw [window_length]; omega), hstream,
          List.drop_left]
      · obtain rfl : pre = [] := List.eq_nil_of_length_eq_zero (by omega)
        obtain ⟨o, t, m, hi, ht, hend⟩ := iterate_atFrame hlen hafter hmax htakes (.atFrame hstream hvalid hframes)
        exact ⟨o, t, m, hi, ht, hend.imp_right (And.imp_right Nat.lt_succ_of_lt)⟩

/-- One iteration from any phase. -/
theorem Phase.iterate {m : Nat} (h : Phase s₀ payload after rem m s) (hlen : payload.length = 92)
    (hafter : NoSync after) (hmax : s.params.maxPayload = 4096) (htakes : s.DownstreamTakes) :
    GoesOn s₀ payload after rem m (iterate s) := by
  have hphase := h
  cases h with
  | searching => exact iterate_searching hlen hafter hmax htakes hphase
  | atFrame => exact iterate_atFrame hlen hafter hmax htakes hphase
  | reported => exact iterate_reported hphase

end

/-! A RUN: at most two continues, then a stop. -/

section
variable {s₀ s v : State} {payload after rem : List Byte} {m : Nat}

theorem Phase.of_continues {os : List IterOutcome} (hcont : Continues s os v)
    (h : Phase s₀ payload after rem m s) (hlen : payload.length = 92) (hafter : NoSync after)
    (hmax : s.params.maxPayload = 4096) (htakes : s.DownstreamTakes) :
    ∃ m', m' + os.length ≤ m ∧ Phase s₀ payload after rem m' v := by
  induction hcont generalizing m with
  | nil => exact ⟨m, Nat.le_refl m, h⟩
  | @cons s t v o os hc hi ho _ ih =>
    have hlook : (s.setCancel (Pin.sample s.cancel).2).DownstreamTakes := htakes
    obtain ⟨o', t', m', hi', ht, hend⟩ :=
      Phase.iterate (s := s.setCancel (Pin.sample s.cancel).2) (h.congr rfl rfl rfl) hlen hafter hmax hlook
    obtain ⟨rfl, rfl⟩ := Iteration.ended.inj (hi.symm.trans hi')
    obtain ⟨-, hlt⟩ := hend.resolve_left fun hstop => by rw [ho] at hstop; exact absurd hstop.1 (by decide)
    have httakes : t.DownstreamTakes := downstreamTakes_of_ended hlook hi
    have htmax : t.params.maxPayload = 4096 := by rw [(iterate_frame hi).params]; exact hmax
    obtain ⟨m'', hle, hv⟩ := ih (m := m') (ht.congr rfl rfl rfl) htmax httakes
    exact ⟨m'', by simp only [List.length_cons]; omega, hv⟩

/-- Below the cap and never cancelled a RUN ends with a stop, which leaves the stream in a phase, and with nothing
left to append in the last one. -/
theorem Phase.exec_run (h : Phase s₀ payload after rem m s) (hlen : payload.length = 92) (hafter : NoSync after)
    (hmax : s.params.maxPayload = 4096) (hcap : s.params.iterCap = 1000) (htakes : s.DownstreamTakes)
    (hnever : s.NeverCancelled) :
    ∃ t m', exec .run s = .next t ∧ Phase s₀ payload after rem m' t ∧ (rem = [] → m' = 0) ∧
      t.DownstreamTakes ∧ t.NeverCancelled := by
  obtain ⟨t, ht⟩ := exec_run_of_downstreamTakes htakes
  obtain ⟨os, v, k, r, u, hcont, hend, hfin⟩ := exec_run_ends ht
  obtain ⟨m', hle, hv⟩ := Phase.of_continues hcont (h.congr rfl rfl rfl) hlen hafter hmax htakes
  have hvtakes := hcont.downstreamTakes htakes
  have hvnever : v.NeverCancelled := by
    rw [State.NeverCancelled, hcont.cancel.1]
    exact hnever.rest _
  have hm : m ≤ 2 := by cases h <;> omega
  cases hend with
  | cancelled _ hc => rw [hvnever.sample_fst] at hc; cases hc
  | capped hcapped => omega
  | stop o w hlt hc hi ho =>
    have hlook : (v.setCancel (Pin.sample v.cancel).2).DownstreamTakes := hvtakes
    have hvmax : v.params.maxPayload = 4096 := by rw [hcont.extracted.params]; exact hmax
    obtain ⟨o', w', m'', hi', hw, hstop⟩ :=
      Phase.iterate (s := v.setCancel (Pin.sample v.cancel).2) (hv.congr rfl rfl rfl) hlen hafter hvmax hlook
    obtain ⟨rfl, rfl⟩ := Iteration.ended.inj (hi.symm.trans hi')
    obtain ⟨-, hlast⟩ := hstop.resolve_right fun hgo => by rw [ho] at hgo; exact absurd hgo.1 (by decide)
    cases hfin
    have hwtakes : w.DownstreamTakes := downstreamTakes_of_ended hlook hi
    have hwnever : w.NeverCancelled := by
      rw [State.NeverCancelled, (iterate_frame hi).cancel]
      exact hvnever.sample_snd
    exact ⟨_, m'', ht, hw.congr rfl rfl (frames_emit_response _ _), hlast, hwtakes, hwnever⟩

end

/-! The host's commands, one after the other. -/

/-- FX in the stream, with the document's build parameters, a downstream that takes every record and no `cancel`. -/
structure Streaming (s₀ : State) (payload after rem : List Byte) (m : Nat) (s : State) : Prop where
  inv : s.Inv
  params : s.params = Config.Params.document
  takes : s.DownstreamTakes
  never : s.NeverCancelled
  phase : Phase s₀ payload after rem m s

/-- No APPEND to come finds the buffer full (41_extractor.md R98). -/
def NeverFull (s : State) : Prop :=
  ∀ (n : Nat) (u : State) (b : Byte) (rest : List HostInput), runs n s = .next u →
    u.inputs = .command (encode (.append b)) :: rest → u.count < u.params.capacity

theorem NeverFull.of_runs {s t : State} {n : Nat} (h : NeverFull s) (ht : runs n s = .next t) : NeverFull t :=
  fun k u b rest hu => h (n + k) u b rest ((runs_add k ht).trans hu)

section
variable {s₀ s : State} {payload after rem : List Byte} {m : Nat}

/-- An APPEND with room moves the stream by a byte. -/
theorem Streaming.step_append {b : Byte} {rest : List HostInput} (h : Streaming s₀ payload after (b :: rem) m s)
    (hroom : s.count < s.params.capacity) (hin : s.inputs = .command (encode (.append b)) :: rest) :
    ∃ t, step s = .next t ∧ t.inputs = rest ∧ Streaming s₀ payload after rem m t := by
  have hinv := h.inv.setInputs rest
  have hwin : window (appendByte b (s.setInputs rest)) = window s ++ [b] := by
    rw [window_appendByte b hinv.capacity_pos hinv.count hinv.canonical, State.setInputs_count, State.setInputs_params,
      if_neg (Nat.ne_of_lt hroom), window_setInputs]
  refine ⟨_, Machine.step_append hin, by simp, ⟨(hinv.appendByte b).emit _, ?_, ?_, ?_, ?_⟩⟩
  · simpa using h.params
  · simpa [State.DownstreamTakes] using h.takes
  · simpa [State.NeverCancelled] using h.never
  · refine h.phase.append hwin (by simp) ?_
    rw [frames_emit_response]
    simp [State.frames]

theorem Streaming.step_run {rest : List HostInput} (h : Streaming s₀ payload after rem m s)
    (hlen : payload.length = 92) (hafter : NoSync after) (hin : s.inputs = .command (encode .run) :: rest) :
    ∃ t m', step s = .next t ∧ t.inputs = rest ∧ Streaming s₀ payload after rem m' t ∧ (rem = [] → m' = 0) := by
  have hparams : (s.setInputs rest).params = Config.Params.document := h.params
  obtain ⟨t, m', ht, hphase, hlast, htakes, hnever⟩ :=
    Phase.exec_run (s := s.setInputs rest) (h.phase.congr rfl rfl rfl) hlen hafter (by rw [hparams]; rfl)
      (by rw [hparams]; rfl) h.takes h.never
  obtain ⟨hp, hi, -⟩ := exec_fill ht
  exact ⟨t, m', (step_legal hin (decode_encode rfl)).trans ht, hi,
    ⟨(h.inv.setInputs rest).exec ht, hp.trans hparams, htakes, hnever, hphase⟩, hlast⟩

theorem Streaming.runs_appends (bytes : List Byte) {rest : List HostInput}
    (h : Streaming s₀ payload after (bytes ++ rem) m s) (hfull : NeverFull s)
    (hin : s.inputs = issue (bytes.map .append) ++ rest) :
    ∃ t, runs bytes.length s = .next t ∧ t.inputs = rest ∧ Streaming s₀ payload after rem m t := by
  induction bytes generalizing s with
  | nil => exact ⟨s, rfl, hin, h⟩
  | cons b bytes ih =>
    obtain ⟨u, hu, huin, hustream⟩ := h.step_append (hfull 0 s b _ rfl hin) hin
    obtain ⟨t, ht, htin, htstream⟩ := ih hustream (hfull.of_runs (n := 1) (runs_succ_of_next 0 hu)) huin
    exact ⟨t, (runs_succ_of_next _ hu).trans ht, htin, htstream⟩

/-- The commands of a host that appends these chunks, a RUN after each. -/
def chunkCommands (chunks : List (List Byte)) : List HostInput :=
  chunks.flatMap fun c => issue (c.map Instr.append ++ [.run])

theorem chunkCommands_cons (c : List Byte) (chunks : List (List Byte)) :
    chunkCommands (c :: chunks) = issue (c.map .append) ++ .command (encode .run) :: chunkCommands chunks := by
  simp [chunkCommands]

theorem Streaming.runs_chunks (chunks : List (List Byte)) {rest : List HostInput}
    (h : Streaming s₀ payload after chunks.flatten m s) (hlen : payload.length = 92) (hafter : NoSync after)
    (hfull : NeverFull s) (hin : s.inputs = chunkCommands chunks ++ rest) :
    ∃ t m', runs (chunkCommands chunks).length s = .next t ∧ t.inputs = rest ∧
      Streaming s₀ payload after [] m' t := by
  induction chunks generalizing s m with
  | nil => exact ⟨s, m, rfl, hin, h⟩
  | cons c chunks ih =>
    rw [chunkCommands_cons, List.append_assoc] at hin
    obtain ⟨u, hu, huin, hustream⟩ := h.runs_appends c hfull hin
    obtain ⟨v, m', hv, hvin, hvstream, -⟩ := hustream.step_run hlen hafter huin
    have huv : runs (c.length + 1) s = .next v := (runs_add 1 hu).trans (runs_succ_of_next 0 hv)
    obtain ⟨t, m'', ht, htin, htstream⟩ := ih hvstream (hfull.of_runs huv) hvin
    refine ⟨t, m'', ?_, htin, htstream⟩
    have hcount : (chunkCommands (c :: chunks)).length = c.length + 1 + (chunkCommands chunks).length := by
      simp [chunkCommands_cons]; omega
    rw [hcount, runs_add _ huv, ht]

end

/-- Settles O55: chunk by chunk the stream keeps to its phases, and the last RUN, with nothing left to append, leaves
it in the last phase. -/
theorem oneTargetFrameInNoiseIsReportedOnce : Obligations.OneTargetFrameInNoiseIsReportedOnce := by
  intro s before after payload chunks hinv hparams hcount hnever htakes hbefore hafter hlen hflat hin hfull
  have hempty : window s = [] := List.eq_nil_of_length_eq_zero (by rw [window_length, hcount])
  have hstart : Streaming s payload after chunks.flatten 2 s :=
    ⟨hinv, hparams, htakes, hnever,
      .searching before hbefore (by rw [hempty, hflat, List.append_assoc]; rfl) rfl rfl⟩
  have hcommands : chunkedHost chunks = chunkCommands chunks ++ issue [.run] := rfl
  obtain ⟨u, m, hu, huin, hustream⟩ := hstart.runs_chunks chunks hlen hafter hfull (hin.trans hcommands)
  obtain ⟨t, m', ht, htin, htstream, hlast⟩ := hustream.step_run hlen hafter huin
  obtain rfl := hlast rfl
  cases htstream.phase with
  | reported _ hvalid hframes =>
    refine ⟨t, ?_, htin, hvalid, hframes⟩
    rw [hin, hcommands, List.length_append]
    exact (runs_add 1 hu).trans (runs_succ_of_next 0 ht)

end Sys2Proof.Machine
